-- ==== Sys2Proof/Word.lean ====
section
/-! DEFINITION. The word types of the machine and their plainest arithmetic (spec/00_scope.md R7, R10, R15;
spec/30_encoding.md R72). Every value is unsigned; nothing is ever read as signed (R10). -/

namespace Sys2Proof

/-- A byte: a general register, a timer, a memory cell (R7, R20). -/
abbrev Byte := BitVec 8

/-- A 16-bit word: `I`, `pc`, a stack slot, an opcode (R7, R70). -/
abbrev Word := BitVec 16

/-- A 4-bit field of an opcode: `op`, `X`, `Y`, `N` (R72). -/
abbrev Nibble := BitVec 4

/-- The 12-bit address field `NNN` (R72). -/
abbrev Addr12 := BitVec 12

/-- `trunc_8(v)` is `v mod 256` (R10). -/
def trunc8 (v : Nat) : Byte := BitVec.ofNat 8 v

/-- `trunc_16(v)` is `v mod 65536` (R10). -/
def trunc16 (v : Nat) : Word := BitVec.ofNat 16 v

end Sys2Proof
end

