-- ==== Sys2Proof/Syntax.lean ====
section
/-! DEFINITION. The 34 instructions, one constructor per row of spec/opcode_table.json, in the table's order
(spec/30_encoding.md R73, R75). Each operand is a field of the opcode at its own width, so an operand outside its field
cannot be written down: register indices are "validated at decode time by their 4-bit width" (spec/40_cycle.md R94). -/

namespace Sys2Proof

/-- An instruction. `x` and `y` are the register fields X and Y, `n` the count N, `nn` the byte NN, `nnn` the
address NNN (R72). -/
inductive Instr where
  /-- `00E0` (R111) -/
  | cls
  /-- `00EE` (R131) -/
  | ret
  /-- `1NNN` (R132) -/
  | jp (nnn : Addr12)
  /-- `2NNN` (R133) -/
  | call (nnn : Addr12)
  /-- `3XNN` (R134) -/
  | seVxNn (x : Nibble) (nn : Byte)
  /-- `4XNN` (R135) -/
  | sneVxNn (x : Nibble) (nn : Byte)
  /-- `5XY0` (R136) -/
  | seVxVy (x y : Nibble)
  /-- `6XNN` (R151) -/
  | ldVxNn (x : Nibble) (nn : Byte)
  /-- `7XNN` (R152) -/
  | addVxNn (x : Nibble) (nn : Byte)
  /-- `8XY0` (R153) -/
  | ldVxVy (x y : Nibble)
  /-- `8XY1` (R154) -/
  | or (x y : Nibble)
  /-- `8XY2` (R155) -/
  | and (x y : Nibble)
  /-- `8XY3` (R156) -/
  | xor (x y : Nibble)
  /-- `8XY4` (R157) -/
  | addVxVy (x y : Nibble)
  /-- `8XY5` (R158) -/
  | sub (x y : Nibble)
  /-- `8XY6` (R159); Y is kept and never read (R76) -/
  | shr (x y : Nibble)
  /-- `8XY7` (R160) -/
  | subn (x y : Nibble)
  /-- `8XYE` (R161); Y is kept and never read (R76) -/
  | shl (x y : Nibble)
  /-- `9XY0` (R137) -/
  | sneVxVy (x y : Nibble)
  /-- `ANNN` (R180) -/
  | ldINnn (nnn : Addr12)
  /-- `BNNN` (R138) -/
  | jpV0 (nnn : Addr12)
  /-- `CXNN` (R162) -/
  | rnd (x : Nibble) (nn : Byte)
  /-- `DXYN` (R112) -/
  | drw (x y n : Nibble)
  /-- `EX9E` (R200) -/
  | skp (x : Nibble)
  /-- `EXA1` (R201) -/
  | sknp (x : Nibble)
  /-- `FX07` (R202) -/
  | ldVxDt (x : Nibble)
  /-- `FX0A` (R203) -/
  | ldVxK (x : Nibble)
  /-- `FX15` (R204) -/
  | ldDtVx (x : Nibble)
  /-- `FX18` (R205) -/
  | ldStVx (x : Nibble)
  /-- `FX1E` (R181) -/
  | addIVx (x : Nibble)
  /-- `FX29` (R182) -/
  | ldFVx (x : Nibble)
  /-- `FX33` (R183) -/
  | ldBVx (x : Nibble)
  /-- `FX55` (R184) -/
  | ldMiVx (x : Nibble)
  /-- `FX65` (R185) -/
  | ldVxMi (x : Nibble)
deriving DecidableEq, Repr

end Sys2Proof
end

