-- ==== Sys2Proof/WellFormed.lean ====
section
/-! DEFINITION. The opcode map of spec/30_encoding.md R75 as data, and the check of well-formedness.

An `Instr` carries every operand in a field of its own width (R72, R94), so every `Instr` is well-formed by its type and
there is no ill-formed one to refuse. What can be ill-formed is a WORD: `wordWellFormed` holds of the words that match
a row of the map, and one check per illegal class of R78 says which words it refuses. -/

namespace Sys2Proof

/-- One row of the opcode map: the word `w` is the instruction exactly when `w & mask == value` (R75, where `value` is
called `match`). -/
structure OpcodeRow where
  mnemonic : String
  mask : Word
  value : Word
deriving DecidableEq, Repr

/-- The word `w` matches the row (R75). -/
def OpcodeRow.matchesWord (r : OpcodeRow) (w : Word) : Bool := (w &&& r.mask) == r.value

/-- The opcode map, families 0 to 8 (R75). -/
def opcodeRowsLow : List OpcodeRow :=
  [
   ⟨"CLS", 0xFFFF#16, 0x00E0#16⟩,
   ⟨"RET", 0xFFFF#16, 0x00EE#16⟩,
   ⟨"JP", 0xF000#16, 0x1000#16⟩,
   ⟨"CALL", 0xF000#16, 0x2000#16⟩,
   ⟨"SE_VX_NN", 0xF000#16, 0x3000#16⟩,
   ⟨"SNE_VX_NN", 0xF000#16, 0x4000#16⟩,
   ⟨"SE_VX_VY", 0xF00F#16, 0x5000#16⟩,
   ⟨"LD_VX_NN", 0xF000#16, 0x6000#16⟩,
   ⟨"ADD_VX_NN", 0xF000#16, 0x7000#16⟩,
   ⟨"LD_VX_VY", 0xF00F#16, 0x8000#16⟩,
   ⟨"OR", 0xF00F#16, 0x8001#16⟩,
   ⟨"AND", 0xF00F#16, 0x8002#16⟩,
   ⟨"XOR", 0xF00F#16, 0x8003#16⟩,
   ⟨"ADD_VX_VY", 0xF00F#16, 0x8004#16⟩,
   ⟨"SUB", 0xF00F#16, 0x8005#16⟩,
   ⟨"SHR", 0xF00F#16, 0x8006#16⟩,
   ⟨"SUBN", 0xF00F#16, 0x8007#16⟩,
   ⟨"SHL", 0xF00F#16, 0x800E#16⟩
  ]

/-- The opcode map, families 9 to F (R75). -/
def opcodeRowsHigh : List OpcodeRow :=
  [
   ⟨"SNE_VX_VY", 0xF00F#16, 0x9000#16⟩,
   ⟨"LD_I_NNN", 0xF000#16, 0xA000#16⟩,
   ⟨"JP_V0", 0xF000#16, 0xB000#16⟩,
   ⟨"RND", 0xF000#16, 0xC000#16⟩,
   ⟨"DRW", 0xF000#16, 0xD000#16⟩,
   ⟨"SKP", 0xF0FF#16, 0xE09E#16⟩,
   ⟨"SKNP", 0xF0FF#16, 0xE0A1#16⟩,
   ⟨"LD_VX_DT", 0xF0FF#16, 0xF007#16⟩,
   ⟨"LD_VX_K", 0xF0FF#16, 0xF00A#16⟩,
   ⟨"LD_DT_VX", 0xF0FF#16, 0xF015#16⟩,
   ⟨"LD_ST_VX", 0xF0FF#16, 0xF018#16⟩,
   ⟨"ADD_I_VX", 0xF0FF#16, 0xF01E#16⟩,
   ⟨"LD_F_VX", 0xF0FF#16, 0xF029#16⟩,
   ⟨"LD_B_VX", 0xF0FF#16, 0xF033#16⟩,
   ⟨"LD_MI_VX", 0xF0FF#16, 0xF055#16⟩,
   ⟨"LD_VX_MI", 0xF0FF#16, 0xF065#16⟩
  ]

/-- The opcode map of R75, in the table's order. -/
def opcodeRows : List OpcodeRow := opcodeRowsLow ++ opcodeRowsHigh

/-- The row of an instruction (R75). -/
def rowOf : Instr → OpcodeRow
  | .cls => ⟨"CLS", 0xFFFF#16, 0x00E0#16⟩
  | .ret => ⟨"RET", 0xFFFF#16, 0x00EE#16⟩
  | .jp _ => ⟨"JP", 0xF000#16, 0x1000#16⟩
  | .call _ => ⟨"CALL", 0xF000#16, 0x2000#16⟩
  | .seVxNn _ _ => ⟨"SE_VX_NN", 0xF000#16, 0x3000#16⟩
  | .sneVxNn _ _ => ⟨"SNE_VX_NN", 0xF000#16, 0x4000#16⟩
  | .seVxVy _ _ => ⟨"SE_VX_VY", 0xF00F#16, 0x5000#16⟩
  | .ldVxNn _ _ => ⟨"LD_VX_NN", 0xF000#16, 0x6000#16⟩
  | .addVxNn _ _ => ⟨"ADD_VX_NN", 0xF000#16, 0x7000#16⟩
  | .ldVxVy _ _ => ⟨"LD_VX_VY", 0xF00F#16, 0x8000#16⟩
  | .or _ _ => ⟨"OR", 0xF00F#16, 0x8001#16⟩
  | .and _ _ => ⟨"AND", 0xF00F#16, 0x8002#16⟩
  | .xor _ _ => ⟨"XOR", 0xF00F#16, 0x8003#16⟩
  | .addVxVy _ _ => ⟨"ADD_VX_VY", 0xF00F#16, 0x8004#16⟩
  | .sub _ _ => ⟨"SUB", 0xF00F#16, 0x8005#16⟩
  | .shr _ _ => ⟨"SHR", 0xF00F#16, 0x8006#16⟩
  | .subn _ _ => ⟨"SUBN", 0xF00F#16, 0x8007#16⟩
  | .shl _ _ => ⟨"SHL", 0xF00F#16, 0x800E#16⟩
  | .sneVxVy _ _ => ⟨"SNE_VX_VY", 0xF00F#16, 0x9000#16⟩
  | .ldINnn _ => ⟨"LD_I_NNN", 0xF000#16, 0xA000#16⟩
  | .jpV0 _ => ⟨"JP_V0", 0xF000#16, 0xB000#16⟩
  | .rnd _ _ => ⟨"RND", 0xF000#16, 0xC000#16⟩
  | .drw _ _ _ => ⟨"DRW", 0xF000#16, 0xD000#16⟩
  | .skp _ => ⟨"SKP", 0xF0FF#16, 0xE09E#16⟩
  | .sknp _ => ⟨"SKNP", 0xF0FF#16, 0xE0A1#16⟩
  | .ldVxDt _ => ⟨"LD_VX_DT", 0xF0FF#16, 0xF007#16⟩
  | .ldVxK _ => ⟨"LD_VX_K", 0xF0FF#16, 0xF00A#16⟩
  | .ldDtVx _ => ⟨"LD_DT_VX", 0xF0FF#16, 0xF015#16⟩
  | .ldStVx _ => ⟨"LD_ST_VX", 0xF0FF#16, 0xF018#16⟩
  | .addIVx _ => ⟨"ADD_I_VX", 0xF0FF#16, 0xF01E#16⟩
  | .ldFVx _ => ⟨"LD_F_VX", 0xF0FF#16, 0xF029#16⟩
  | .ldBVx _ => ⟨"LD_B_VX", 0xF0FF#16, 0xF033#16⟩
  | .ldMiVx _ => ⟨"LD_MI_VX", 0xF0FF#16, 0xF055#16⟩
  | .ldVxMi _ => ⟨"LD_VX_MI", 0xF0FF#16, 0xF065#16⟩

/-- A word is well-formed when it is one of the 34 instructions: it matches a row of the map (R75, R79). -/
def wordWellFormed (w : Word) : Bool := opcodeRows.any fun r => r.matchesWord w

/-- Check of family 0 (R78): `0NNN` other than 0x00E0 and 0x00EE, including 0x0000. -/
def badFamily0 (w : Word) : Bool :=
  w.extractLsb' 12 4 == 0x0#4 && w != 0x00E0#16 && w != 0x00EE#16

/-- Check of families 5 and 9 (R78): `5XYn` and `9XYn` with n other than 0. -/
def badFamily59 (w : Word) : Bool :=
  (w.extractLsb' 12 4 == 0x5#4 || w.extractLsb' 12 4 == 0x9#4) && w.extractLsb' 0 4 != 0x0#4

/-- Check of family 8 (R78): `8XYn` with n in 8, 9, A, B, C, D, F. -/
def badFamily8 (w : Word) : Bool :=
  w.extractLsb' 12 4 == 0x8#4 && [0x8#4, 0x9#4, 0xA#4, 0xB#4, 0xC#4, 0xD#4, 0xF#4].contains (w.extractLsb' 0 4)

/-- Check of family E (R78): `EXnn` with nn other than 9E, A1. -/
def badFamilyE (w : Word) : Bool :=
  w.extractLsb' 12 4 == 0xE#4 && !([0x9E#8, 0xA1#8].contains (w.extractLsb' 0 8))

/-- Check of family F (R78): `FXnn` with nn other than 07, 0A, 15, 18, 1E, 29, 33, 55, 65. -/
def badFamilyF (w : Word) : Bool :=
  w.extractLsb' 12 4 == 0xF#4 &&
    !([0x07#8, 0x0A#8, 0x15#8, 0x18#8, 0x1E#8, 0x29#8, 0x33#8, 0x55#8, 0x65#8].contains (w.extractLsb' 0 8))

/-- The illegal words as R78 lists them. -/
def wordIllegal (w : Word) : Bool :=
  badFamily0 w || badFamily59 w || badFamily8 w || badFamilyE w || badFamilyF w

end Sys2Proof
end

