-- ==== Sys2Proof/Decode.lean ====
section
/-! DEFINITION. The decoder (spec/30_encoding.md R72, R74, R78), total on any bytes and rejecting by name, and after it the
encoder, written from the same opcode map (R71, R75). -/

namespace Sys2Proof

/-- Why bytes are no instruction. -/
inductive DecodeReject where
  /-- The word matches no row of the opcode map (R78). Safe: the machine raises IllegalOpcode for exactly these words. -/
  | illegal (w : Word)
  /-- Fewer than the two bytes of an instruction were given (R70). Only `decodeBytes` on a short list answers this. Safe:
  a fetch always gives two bytes. -/
  | truncated
deriving DecidableEq, Repr

/-- `op` is `w[15:12]` (R72). -/
def fieldOp (w : Word) : Nibble := w.extractLsb' 12 4
/-- `X` is `w[11:8]` (R72). -/
def fieldX (w : Word) : Nibble := w.extractLsb' 8 4
/-- `Y` is `w[7:4]` (R72). -/
def fieldY (w : Word) : Nibble := w.extractLsb' 4 4
/-- `N` is `w[3:0]` (R72). -/
def fieldN (w : Word) : Nibble := w.extractLsb' 0 4
/-- `NN` is `w[7:0]` (R72). -/
def fieldNN (w : Word) : Byte := w.extractLsb' 0 8
/-- `NNN` is `w[11:0]` (R72). -/
def fieldNNN (w : Word) : Addr12 := w.extractLsb' 0 12

/-- Family 0, keyed by the whole word (R74). -/
def decodeFamily0 (w : Word) : Option Instr :=
  if w = 0x00E0#16 then some .cls else if w = 0x00EE#16 then some .ret else none

/-- Family 5, whose low nibble must be 0 (R74, R78, C2). -/
def decodeFamily5 (x y n : Nibble) : Option Instr :=
  if n = 0x0#4 then some (.seVxVy x y) else none

/-- Family 8, sub-keyed by N (R74). -/
def decodeFamily8 (x y n : Nibble) : Option Instr :=
  match n with
  | 0x0#4 => some (.ldVxVy x y)
  | 0x1#4 => some (.or x y)
  | 0x2#4 => some (.and x y)
  | 0x3#4 => some (.xor x y)
  | 0x4#4 => some (.addVxVy x y)
  | 0x5#4 => some (.sub x y)
  | 0x6#4 => some (.shr x y)
  | 0x7#4 => some (.subn x y)
  | 0xE#4 => some (.shl x y)
  | _ => none

/-- Family 9, whose low nibble must be 0 (R74, R78, C2). -/
def decodeFamily9 (x y n : Nibble) : Option Instr :=
  if n = 0x0#4 then some (.sneVxVy x y) else none

/-- Family E, sub-keyed by NN (R74). -/
def decodeFamilyE (x : Nibble) (nn : Byte) : Option Instr :=
  match nn with
  | 0x9E#8 => some (.skp x)
  | 0xA1#8 => some (.sknp x)
  | _ => none

/-- Family F, sub-keyed by NN (R74). -/
def decodeFamilyF (x : Nibble) (nn : Byte) : Option Instr :=
  match nn with
  | 0x07#8 => some (.ldVxDt x)
  | 0x0A#8 => some (.ldVxK x)
  | 0x15#8 => some (.ldDtVx x)
  | 0x18#8 => some (.ldStVx x)
  | 0x1E#8 => some (.addIVx x)
  | 0x29#8 => some (.ldFVx x)
  | 0x33#8 => some (.ldBVx x)
  | 0x55#8 => some (.ldMiVx x)
  | 0x65#8 => some (.ldVxMi x)
  | _ => none

/-- `Decode(w)` of R74: the high nibble selects the family; `none` is `Illegal`. -/
def decodeRow (w : Word) : Option Instr :=
  match fieldOp w with
  | 0x0#4 => decodeFamily0 w
  | 0x1#4 => some (.jp (fieldNNN w))
  | 0x2#4 => some (.call (fieldNNN w))
  | 0x3#4 => some (.seVxNn (fieldX w) (fieldNN w))
  | 0x4#4 => some (.sneVxNn (fieldX w) (fieldNN w))
  | 0x5#4 => decodeFamily5 (fieldX w) (fieldY w) (fieldN w)
  | 0x6#4 => some (.ldVxNn (fieldX w) (fieldNN w))
  | 0x7#4 => some (.addVxNn (fieldX w) (fieldNN w))
  | 0x8#4 => decodeFamily8 (fieldX w) (fieldY w) (fieldN w)
  | 0x9#4 => decodeFamily9 (fieldX w) (fieldY w) (fieldN w)
  | 0xA#4 => some (.ldINnn (fieldNNN w))
  | 0xB#4 => some (.jpV0 (fieldNNN w))
  | 0xC#4 => some (.rnd (fieldX w) (fieldNN w))
  | 0xD#4 => some (.drw (fieldX w) (fieldY w) (fieldN w))
  | 0xE#4 => decodeFamilyE (fieldX w) (fieldNN w)
  | 0xF#4 => decodeFamilyF (fieldX w) (fieldNN w)
  | _ => none

/-- The decoder on one word: an instruction, or a rejection that names the word (R74, R78). -/
def decodeWord (w : Word) : Except DecodeReject Instr :=
  match decodeRow w with
  | some i => .ok i
  | none => .error (.illegal w)

/-- The decoder on bytes: the first two are the word, the first of them its high byte (R56, R70); it answers the
instruction and the bytes after it. -/
def decodeBytes : List Byte → Except DecodeReject (Instr × List Byte)
  | hi :: lo :: rest =>
    match decodeWord (hi ++ lo) with
    | .ok i => .ok (i, rest)
    | .error e => .error e
  | _ => .error .truncated

/-- A 16-bit word as memory holds it: high byte first (R56). -/
def wordBytes (w : Word) : List Byte := [w.extractLsb' 8 8, w.extractLsb' 0 8]

/-- The instruction the decoder reads from a row's bits `w`, of which the lowest `nbits` count. -/
def decodeTableWord (nbits w : Nat) : Option Instr :=
  match decodeBytes (wordBytes (BitVec.ofNat 16 (w % 2 ^ nbits))) with
  | .ok (i, _) => some i
  | .error _ => none

/-! The encoder. -/

/-- The word `oNNN` (R71, R73). -/
def wordNNN (op : Nibble) (nnn : Addr12) : Word := op ++ nnn
/-- The word `oXNN`, and `oXss` with a fixed low byte (R71, R73). -/
def wordXNN (op x : Nibble) (nn : Byte) : Word := op ++ x ++ nn
/-- The word `oXYN`, and `oXYs` with a fixed low nibble (R71, R73). -/
def wordXYN (op x y n : Nibble) : Word := op ++ x ++ y ++ n

/-- The word of an instruction, from the opcode map (R75). -/
def encode : Instr → Word
  | .cls => 0x00E0#16
  | .ret => 0x00EE#16
  | .jp nnn => wordNNN 0x1#4 nnn
  | .call nnn => wordNNN 0x2#4 nnn
  | .seVxNn x nn => wordXNN 0x3#4 x nn
  | .sneVxNn x nn => wordXNN 0x4#4 x nn
  | .seVxVy x y => wordXYN 0x5#4 x y 0x0#4
  | .ldVxNn x nn => wordXNN 0x6#4 x nn
  | .addVxNn x nn => wordXNN 0x7#4 x nn
  | .ldVxVy x y => wordXYN 0x8#4 x y 0x0#4
  | .or x y => wordXYN 0x8#4 x y 0x1#4
  | .and x y => wordXYN 0x8#4 x y 0x2#4
  | .xor x y => wordXYN 0x8#4 x y 0x3#4
  | .addVxVy x y => wordXYN 0x8#4 x y 0x4#4
  | .sub x y => wordXYN 0x8#4 x y 0x5#4
  | .shr x y => wordXYN 0x8#4 x y 0x6#4
  | .subn x y => wordXYN 0x8#4 x y 0x7#4
  | .shl x y => wordXYN 0x8#4 x y 0xE#4
  | .sneVxVy x y => wordXYN 0x9#4 x y 0x0#4
  | .ldINnn nnn => wordNNN 0xA#4 nnn
  | .jpV0 nnn => wordNNN 0xB#4 nnn
  | .rnd x nn => wordXNN 0xC#4 x nn
  | .drw x y n => wordXYN 0xD#4 x y n
  | .skp x => wordXNN 0xE#4 x 0x9E#8
  | .sknp x => wordXNN 0xE#4 x 0xA1#8
  | .ldVxDt x => wordXNN 0xF#4 x 0x07#8
  | .ldVxK x => wordXNN 0xF#4 x 0x0A#8
  | .ldDtVx x => wordXNN 0xF#4 x 0x15#8
  | .ldStVx x => wordXNN 0xF#4 x 0x18#8
  | .addIVx x => wordXNN 0xF#4 x 0x1E#8
  | .ldFVx x => wordXNN 0xF#4 x 0x29#8
  | .ldBVx x => wordXNN 0xF#4 x 0x33#8
  | .ldMiVx x => wordXNN 0xF#4 x 0x55#8
  | .ldVxMi x => wordXNN 0xF#4 x 0x65#8

end Sys2Proof
end

