-- ==== Sys2Proof/Config.lean ====
section
/-! DEFINITION. What is fixed for the machine (spec/00_scope.md R7) and the free values that stand for the inputs the
spec leaves open (R8, D1, D2, R103). The parameter FONT (R8, R55, D11) is the argument of
State.construct; its type and its default stand in Sys2Proof/Machine/Font.lean. -/

namespace Sys2Proof.Config

/-- `MEM_SIZE` (R7): addresses 0x000 to 0xFFF. -/
@[reducible, simp] def memSize : Nat := 4096

/-- The first address after the font region: `FONT_END` is 0x04F (R7). -/
@[reducible, simp] def fontSize : Nat := 80

/-- `PROG_BASE` (R7): reset pc and load offset. -/
@[reducible, simp] def progBase : Nat := 0x200

/-- `LOAD_CAPACITY` (R7): 4096 - 0x200. -/
@[reducible, simp] def loadCapacity : Nat := 3584

/-- `STACK_DEPTH` (R7). -/
@[reducible, simp] def stackDepth : Nat := 16

/-- `FB_W` (R7). -/
@[reducible, simp] def fbWidth : Nat := 64

/-- `FB_H` (R7). -/
@[reducible, simp] def fbHeight : Nat := 32

/-- FREE VALUE (DESIGN CHOICE, log entry 2; safe): the ticks the host passes at its n-th turn, where the turn is not
decided by the state. The spec: an OPEN natural, an input of every step (D1, U10). -/
opaque freeTicks : Nat → Nat

/-- FREE VALUE (DESIGN CHOICE, log entry 2; safe): the random byte of the n-th turn. The spec: "any value", a free draw
per step with no law (D2, U7, R248). -/
opaque freeRnd : Nat → Byte

/-- FREE VALUE (DESIGN CHOICE, log entry 3; safe): the `set_key(k, p)` calls the host makes at its n-th turn (R103, R245). -/
opaque freeKeyWrites : Nat → List (Nat × Bool)

/-- FREE VALUE (DESIGN CHOICE, log entry 3; safe): whether the host calls `clear_redraw` at its n-th turn (R103, R246). -/
opaque freeClearRedraw : Nat → Bool

end Sys2Proof.Config
end

