-- ==== Sys2Proof/Machine/Font.lean ====
section
/-! DEFINITION. The type of the parameter FONT (spec/20_memory.md R55, D11): 80 bytes, glyph d at 5d; and its default value. The
machine is constructed with any `Font` (`State.construct`) and keeps it in `State.font`. The default below is the one the
spec gives, "the conventional CHIP-8 hexadecimal font [from general knowledge, not in source]" (log entry 4: PRESUMED,
unsafe for a claim about State.reset that reads a glyph's bytes; a statement about every state holds for every font). -/

namespace Sys2Proof.Machine

/-- The parameter FONT: 80 bytes, byte a of it at the address a (R55). -/
abbrev Font := Vector Byte 80

/-- Glyphs 0 to 7 (R55). -/
def fontLow : List Byte :=
  [0xF0, 0x90, 0x90, 0x90, 0xF0,
   0x20, 0x60, 0x20, 0x20, 0x70,
   0xF0, 0x10, 0xF0, 0x80, 0xF0,
   0xF0, 0x10, 0xF0, 0x10, 0xF0,
   0x90, 0x90, 0xF0, 0x10, 0x10,
   0xF0, 0x80, 0xF0, 0x10, 0xF0,
   0xF0, 0x80, 0xF0, 0x90, 0xF0,
   0xF0, 0x10, 0x20, 0x40, 0x40]

/-- Glyphs 8 to F (R55). -/
def fontHigh : List Byte :=
  [0xF0, 0x90, 0xF0, 0x90, 0xF0,
   0xF0, 0x90, 0xF0, 0x10, 0xF0,
   0xF0, 0x90, 0xF0, 0x90, 0x90,
   0xE0, 0x90, 0xE0, 0x90, 0xE0,
   0xF0, 0x80, 0x80, 0x80, 0xF0,
   0xE0, 0x90, 0x90, 0x90, 0xE0,
   0xF0, 0x80, 0xF0, 0x80, 0xF0,
   0xF0, 0x80, 0xF0, 0x80, 0x80]

/-- The default of FONT: 16 glyphs of 5 bytes (R55). -/
def defaultFont : Font := ⟨(fontLow ++ fontHigh).toArray, rfl⟩

end Sys2Proof.Machine
end

