-- ==== Sys2Proof/Machine/State.lean ====
section
/-! DEFINITION. The state as plain data (spec/10_state.md R20 to R37), the fault record (spec/60_exceptions.md R228), the
host's turns, and the state after reset (R36, R260). -/

namespace Sys2Proof.Machine

/-- Memory: the cells that differ from the contents after construction, addresses strictly rising
(Sys2Proof/Machine/Memory.lean says what an unlisted address reads as). -/
abbrev Memory := List Host.Cell

/-- One row of pixels, column 0 first (R30: x is the column, increasing to the right). -/
abbrev PixelRow := Vector Bool 64

/-- The framebuffer, row-major: row y holds the pixels (x, y) (R30); `true` is lit. -/
abbrev Framebuffer := Vector PixelRow 32

/-- The kinds of engine fault (R228). -/
inductive FaultKind where
  /-- The fetched word matches no row of the opcode map (R221); raised by the decode phase. -/
  | illegalOpcode
  /-- CALL with SP = 16 (R222). -/
  | stackOverflow
  /-- RET with SP = 0 (R223). -/
  | stackUnderflow
  /-- An access at an address of 4096 or more (R224); raised by fetch, DRW, LD_B_VX, LD_MI_VX, LD_VX_MI. -/
  | addressOutOfRange
  /-- SKP or SKNP with V[X] above 0x0F (R225, D7). -/
  | keyIndexOutOfRange
  /-- LD_B_VX or LD_MI_VX writing an address of 0x04F or less (R226, D8). -/
  | romWrite
deriving DecidableEq, Repr

/-- A fault record (R98, R228). The record's `code` is a function of its kind (`FaultKind.code`), so it is not stored
twice. -/
structure FaultRecord where
  /-- The fault kind. -/
  kind : FaultKind
  /-- The address of the faulting fetch. -/
  pc : Word
  /-- The fetched word, or none for a fetch fault. -/
  opcode : Option Word
  /-- The illegal word, the out-of-range or read-only address, or the key value; none for the stack faults. -/
  info : Option Nat
deriving DecidableEq, Repr

/-- What the host does for one step (R100, R263): the `set_key(k, p)` calls, whether it calls `clear_redraw`, and the
step's inputs `ticks` and `rnd` (R37). -/
structure HostTurn where
  keyWrites : List (Nat × Bool)
  clearRedraw : Bool
  ticks : Nat
  rnd : Byte
deriving DecidableEq, Repr

/-- The whole state: the record of R20, and after it the model's own fields for the signals of R37 and for the parameter
FONT of R35, which the host's interface has no other place for. -/
structure State where
  /-- General registers; `V[15]` is `VF` (R21, R22). -/
  V : Vector Byte 16
  /-- The index register (R26). -/
  I : Word
  /-- The program counter (R24). -/
  pc : Word
  /-- The call-stack slots (R27). -/
  stack : Vector Word 16
  /-- The number of occupied slots, 0 to 16 (R20, R27). -/
  SP : Fin 17
  /-- The delay timer (R28). -/
  DT : Byte
  /-- The sound timer (R28). -/
  ST : Byte
  /-- The 4096 bytes of memory (R50). -/
  mem : Memory
  /-- The framebuffer (R30). -/
  fb : Framebuffer
  /-- The keypad latches (R29); `true` is pressed. -/
  key : Vector Bool 16
  /-- The redraw-needed flag (R31). -/
  redraw : Bool
  /-- The fault latch (R32): once set, the machine is halted. -/
  fault : Option FaultRecord
  /-- MODEL'S OWN: the input `ticks` the step in progress has sampled (R37). -/
  ticks : Nat
  /-- MODEL'S OWN: the input `rnd` the step in progress has sampled (R37). -/
  rnd : Byte
  /-- MODEL'S OWN: the output `sound_out` of the last step (R37, R242). -/
  soundOut : Bool
  /-- MODEL'S OWN: the host's turns that are already decided, the next one first (log entry 2). -/
  turns : List HostTurn
  /-- MODEL'S OWN: how many turns were taken; the argument of the free values of Config (log entry 2). -/
  turnNo : Nat
  /-- MODEL'S OWN: the parameter FONT the machine was constructed with (R8, R35, R55); nothing changes it (log entry 4). -/
  font : Font
deriving DecidableEq, Repr

/-- Why a step stops outside the state. This machine has no such reason: every fault of the spec is latched in
`State.fault` and the step still gives a state (R97, R230), and the step of a halted machine gives the unchanged state
(R91). So this closed type has no constructor (log entry 1; safe, since no step is cut short). -/
inductive Fault where
deriving DecidableEq, Repr

/-- Why a step is refused. -/
inductive Refusal where
  /-- The instruction has no meaning yet. Raised by exec's arms only; no arm raises it now. Safe: nothing is claimed of
  a refused instruction. -/
  | notModelled (mnemonic : String)
deriving DecidableEq, Repr

/-- Machine construction with the parameter FONT, the only reset (R35, R36, R260). `mem` lists nothing: every address reads
as its contents after construction, `font` at 0x000 to 0x04F. `fb`, `key`, `redraw` and `fault` are the spec's decision D16
(log entry 5); the six fields after them are the model's own (log entries 2, 4 and 6). -/
def State.construct (font : Font) : State where
  V := Vector.replicate 16 0
  I := 0x0000#16
  pc := 0x0200#16
  stack := Vector.replicate 16 0
  SP := 0
  DT := 0
  ST := 0
  mem := []
  fb := Vector.replicate 32 (Vector.replicate 64 false)
  key := Vector.replicate 16 false
  redraw := false
  fault := none
  ticks := 0
  rnd := 0
  soundOut := false
  turns := []
  turnNo := 0
  font := font

/-- The machine right after reset, with the default of FONT (R55, D11; log entry 4). -/
def State.reset : State := State.construct defaultFont

end Sys2Proof.Machine
end

