-- ==== Sys2Proof/Machine/Memory.lean ====
section
/-! DEFINITION. The byte memory (spec/20_memory.md R50, R51): what an unlisted address reads as, the read, the write, and the
canonical form. -/

namespace Sys2Proof.Machine

/-- What an address that no cell lists reads as: its contents after construction, the font at 0x000 to 0x04F and
zero elsewhere (R36, R51; zero at 0x050 to 0x1FF is D16, log entry 5). -/
def unlisted (font : Font) (a : Nat) : Byte := if h : a < 80 then font[a]'h else 0

/-- The value of the cell that lists `a`, if any. -/
def Memory.lookup : Memory → Nat → Option Byte
  | [], _ => none
  | c :: rest, a => if c.1 = a then some c.2 else Memory.lookup rest a

/-- `mem[a]` (R11, R61). -/
def Memory.read (font : Font) (m : Memory) (a : Nat) : Byte := (m.lookup a).getD (unlisted font a)

/-- The memory without a cell at `a`. -/
def Memory.erase (m : Memory) (a : Nat) : Memory := m.filter fun c => c.1 != a

/-- The memory with a cell put where its address belongs. -/
def Memory.insert : Memory → Nat → Byte → Memory
  | [], a, v => [(a, v)]
  | c :: rest, a, v => if a < c.1 then (a, v) :: c :: rest else c :: Memory.insert rest a v

/-- `mem[a] <- v` (R12), in canonical form: a cell that would hold what an unlisted address reads as is not kept. -/
def Memory.write (font : Font) (m : Memory) (a : Nat) (v : Byte) : Memory :=
  if v = unlisted font a then m.erase a else (m.erase a).insert a v

/-- The bytes written one after another from `a` upward. -/
def Memory.writeBytes (font : Font) : Memory → Nat → List Byte → Memory
  | m, _, [] => m
  | m, a, b :: bs => Memory.writeBytes font (m.write font a b) (a + 1) bs

/-- The `n` bytes read from `a` upward. -/
def Memory.readBytes (font : Font) (m : Memory) (a n : Nat) : List Byte := (List.range' a n).map (m.read font)

/-- A cell that may be listed: its address exists (R50) and it does not hold what an unlisted address reads as. -/
def cellOk (font : Font) (c : Host.Cell) : Bool := decide (c.1 < Config.memSize) && c.2 != unlisted font c.1

/-- The addresses rise strictly. -/
def Memory.rising : Memory → Bool
  | [] => true
  | [_] => true
  | c :: d :: rest => decide (c.1 < d.1) && Memory.rising (d :: rest)

/-- The canonical form of memory: addresses below 4096 and strictly rising, and no cell that an unlisted address would
read as anyway. -/
def Memory.wf (font : Font) (m : Memory) : Bool := m.all (cellOk font) && m.rising

/-- The byte of the machine's memory at the address `a`, `mem[a]` of R11. -/
def byteAt (s : State) (a : Nat) : Byte := s.mem.read s.font a

/-- The machine with these bytes written one after another from `a` upward. -/
def storeBytes (s : State) (a : Nat) (bs : List Byte) : State := { s with mem := s.mem.writeBytes s.font a bs }

end Sys2Proof.Machine
end

