-- ==== Sys2Proof/Machine/Operands.lean ====
section
/-! DEFINITION. The operand forms (spec/30_encoding.md R72): register fields, the 12-bit address, effective addresses
(spec/20_memory.md R54), and the accessors of the register file (spec/10_state.md R21). -/

namespace Sys2Proof.Machine

/-- `V[x]` (R11, R21). -/
def getV (s : State) (x : Nibble) : Byte := s.V[x.toNat]'x.isLt

/-- `V[x] <- v` (R11, R21). No register is hard-wired. -/
def setV (s : State) (x : Nibble) (v : Byte) : State := { s with V := s.V.set x.toNat v x.isLt }

/-- The number of the flag register `VF` (R22). -/
def VF : Nibble := 0xF#4

/-- `zext_16(NNN)` (R72). -/
def zext16 (nnn : Addr12) : Word := nnn.setWidth 16

/-- The effective addresses `base + k` for k below `n`, lowest first, on unbounded naturals (R54, D4). -/
def effAddrs (base n : Nat) : List Nat := List.range' base n

/-- The number of registers `V[0..X]`, X + 1 (R184, R185). -/
def upTo (x : Nibble) : Nat := x.toNat + 1

/-- The values of `V[0..X]`, V[0] first (R184). -/
def regsUpTo (s : State) (x : Nibble) : List Byte := s.V.toList.take (upTo x)

/-- The latch of key `k` (R29). -/
def keyDown (s : State) (k : Nibble) : Bool := s.key[k.toNat]'k.isLt

/-- The sixteen key indices, lowest first (R29). -/
def allKeys : List Nibble := (List.range 16).map (BitVec.ofNat 4)

/-- The lowest-numbered pressed key, if any (R203). -/
def lowestKey (s : State) : Option Nibble := allKeys.find? (keyDown s)

/-- The decimal digits of a byte, hundreds first (R183). -/
def decimalDigits (v : Byte) : List Byte :=
  [trunc8 (v.toNat / 100), trunc8 (v.toNat / 10 % 10), trunc8 (v.toNat % 10)]

end Sys2Proof.Machine
end

