-- ==== Sys2Proof/Machine/Flags.lean ====
section
/-! DEFINITION. The ALU's results and its flags (spec/43_alu.md R150, R157 to R161, R164). Operands are read as naturals, the
result is computed exactly and narrowed at the end (R10, R150). -/

namespace Sys2Proof.Machine

/-- A flag as `VF` holds it: 1 or 0. -/
def flagByte (b : Bool) : Byte := if b then 1 else 0

/-- `trunc_8(a + b)` (R152, R157). -/
def addResult (a b : Byte) : Byte := trunc8 (a.toNat + b.toNat)

/-- The carry: a + b > 255 (R157). -/
def addCarry (a b : Byte) : Bool := decide (255 < a.toNat + b.toNat)

/-- `trunc_8(a + 256 - b)` (R158, R160). -/
def subResult (a b : Byte) : Byte := trunc8 (a.toNat + 256 - b.toNat)

/-- Not-borrow of a - b: 0 if b > a, else 1 (R158, R160). -/
def subNoBorrow (a b : Byte) : Bool := !decide (a.toNat < b.toNat)

/-- `a >> 1` (R159). -/
def shrResult (a : Byte) : Byte := trunc8 (a.toNat >>> 1)

/-- The bit a right shift drops: `a & 1` (R159). -/
def shrOut (a : Byte) : Bool := a.getLsbD 0

/-- `trunc_8(a << 1)` (R161). -/
def shlResult (a : Byte) : Byte := trunc8 (a.toNat <<< 1)

/-- The bit a left shift drops: `(a >> 7) & 1` (R161). -/
def shlOut (a : Byte) : Bool := a.getLsbD 7

/-- The flag into `VF` first and the result into `V[X]` second, so that with X = 0xF the result remains (R13, R150;
D3, log entry 7). -/
def setFlagThenResult (s : State) (x : Nibble) (flag : Bool) (r : Byte) : State :=
  setV (setV s VF (flagByte flag)) x r

end Sys2Proof.Machine
end

