-- ==== Sys2Proof/Machine/Framebuffer.lean ====
section
/-! DEFINITION. The framebuffer controller's two operations, clear and XOR-blit with collision detection (spec/41_display.md
R110 to R115). -/

namespace Sys2Proof.Machine

/-- The pixel (x, y); outside the 64 x 32 screen there is none, and this answers unlit (R30, R114). -/
def pixel (fb : Framebuffer) (x y : Nat) : Bool :=
  if h : x < 64 ∧ y < 32 then (fb[y]'h.2)[x]'h.1 else false

/-- The framebuffer with the pixel (x, y) inverted; outside the screen nothing changes (R112, R114). -/
def togglePixel (fb : Framebuffer) (x y : Nat) : Framebuffer :=
  if h : x < 64 ∧ y < 32 then fb.set y ((fb[y]'h.2).set x (!(fb[y]'h.2)[x]'h.1) h.1) h.2 else fb

/-- All pixels unlit (R111). -/
def clearScreen : Framebuffer := Vector.replicate 32 (Vector.replicate 64 false)

/-- A drawing in progress: the framebuffer so far and whether a pixel has gone from lit to unlit (R112, R115). -/
structure Drawing where
  fb : Framebuffer
  collision : Bool
deriving DecidableEq, Repr

/-- One sprite bit at (px, py): a set bit inside the screen inverts the pixel, and collides if the pixel was lit
(R112, R114, R115). The coordinates are naturals and are not reduced (D10, log entry 8). -/
def drawBit (d : Drawing) (px py : Nat) (bit : Bool) : Drawing :=
  if bit = true ∧ px < Config.fbWidth ∧ py < Config.fbHeight then
    { fb := togglePixel d.fb px py, collision := d.collision || pixel d.fb px py }
  else d

/-- One sprite row at row `py`: bit 7 - c goes to column x0 + c (R113; D9, log entry 8). -/
def drawRow (d : Drawing) (x0 py : Nat) (row : Byte) : Drawing :=
  (List.range 8).foldl (fun d c => drawBit d (x0 + c) py (row.getLsbD (7 - c))) d

/-- The sprite rows from `py` downward, in order (R112). -/
def drawRows : Drawing → Nat → Nat → List Byte → Drawing
  | d, _, _, [] => d
  | d, x0, py, row :: rows => drawRows (drawRow d x0 py row) x0 (py + 1) rows

end Sys2Proof.Machine
end

