-- ==== Sys2Proof/Machine/Ops.lean ====
section
/-! DEFINITION. The shared operations: raising a fault (spec/60_exceptions.md R230), the program counter, the call stack, and
the checked memory transfers. There is no return from a fault (R231): nothing here clears the latch. -/

namespace Sys2Proof.Machine

/-- What a meaning answers. -/
abbrev Result := Host.Outcome State Fault Refusal

/-- The code of a fault kind (R228; the numbering is D6, log entry 11). -/
def FaultKind.code : FaultKind → Nat
  | .illegalOpcode => 1
  | .stackOverflow => 2
  | .stackUnderflow => 3
  | .addressOutOfRange => 4
  | .keyIndexOutOfRange => 5
  | .romWrite => 6

/-- Taking a fault, the one way there is (R97, R98, R230; D5, log entries 1 and 11): the record is latched with the pc
of the faulting fetch, and nothing else changes. A NEXT state, in which the machine is halted. -/
def raise (k : FaultKind) (opcode : Option Word) (info : Option Nat) (s : State) : Result :=
  .next { s with fault := some { kind := k, pc := s.pc, opcode := opcode, info := info } }

/-- `pc <- target` (R11, R25). -/
def jumpTo (s : State) (target : Word) : State := { s with pc := target }

/-- `pc <- p + 2` (R24, R95). -/
def advance (s : State) : State := jumpTo s (trunc16 (s.pc.toNat + 2))

/-- A skip: `pc <- p + 4` if the condition holds, else `pc <- p + 2` (R95, R130). -/
def skipIf (c : Bool) (s : State) : State :=
  if c then jumpTo s (trunc16 (s.pc.toNat + 4)) else advance s

/-- `V[X] <- v; pc <- p + 2`. -/
def writeVx (s : State) (x : Nibble) (v : Byte) : State := advance (setV s x v)

/-- The flag into VF, the result into V[X], `pc <- p + 2` (R150). -/
def writeFlagged (s : State) (x : Nibble) (flag : Bool) (r : Byte) : State :=
  advance (setFlagThenResult s x flag r)

/-- A push: `stack[SP] <- v; SP <- SP + 1`, or none when SP = 16 (R27, R133). -/
def push (s : State) (v : Word) : Option State :=
  if h : s.SP.val < 16 then
    some { s with stack := s.stack.set s.SP.val v h, SP := ⟨s.SP.val + 1, by omega⟩ }
  else none

/-- A pop: `SP <- SP - 1` and the value of `stack[SP]`, or none when SP = 0 (R27, R131). The slot keeps its value
(D23, log entry 14). -/
def pop (s : State) : Option (Word × State) :=
  if h : s.SP.val = 0 then none
  else
    some (s.stack[s.SP.val - 1]'(by have := s.SP.isLt; omega),
      { s with SP := ⟨s.SP.val - 1, by have := s.SP.isLt; omega⟩ })

/-- The check of reads of `n` bytes from `base` (R53, R54): the lowest address of 4096 or more, if there is one. -/
def readFault (base n : Nat) : Option (FaultKind × Nat) :=
  ((effAddrs base n).find? fun a => decide (Config.memSize ≤ a)).map fun a => (.addressOutOfRange, a)

/-- The check of the font region (R52; D8, log entry 9): the lowest address of 0x04F or less, if there is one. -/
def romFault (base n : Nat) : Option (FaultKind × Nat) :=
  ((effAddrs base n).find? fun a => decide (a < Config.fontSize)).map fun a => (.romWrite, a)

/-- The checks of writes of `n` bytes from `base`, the range before the font region (R183, R184, R229). -/
def writeFault (base n : Nat) : Option (FaultKind × Nat) :=
  match readFault base n with
  | some f => some f
  | none => romFault base n

/-- Bytes into `V[0]`, `V[1]`, ... from `mem[base]` upward, `n` of them (R185). -/
def loadRegs (s : State) (base : Nat) : Nat → Vector Byte 16 → Vector Byte 16
  | 0, V => V
  | n + 1, V => (loadRegs s base n V).setIfInBounds n (byteAt s (base + n))

end Sys2Proof.Machine
end

