-- ==== Sys2Proof/Machine/Alu.lean ====
section
/-! DEFINITION. The ALU and register instructions (spec/43_alu.md R151 to R162). Each reads its operands before it writes and
ends with `pc <- p + 2`; none raises a fault. -/

namespace Sys2Proof.Machine

/-- `6XNN` (R151): `V[X] <- NN`. -/
def execLdVxNn (x : Nibble) (nn : Byte) (s : State) : Result := .next (writeVx s x nn)

/-- `7XNN` (R152): `V[X] <- trunc_8(a + NN)`, no flag. -/
def execAddVxNn (x : Nibble) (nn : Byte) (s : State) : Result :=
  .next (writeVx s x (addResult (getV s x) nn))

/-- `8XY0` (R153): `V[X] <- b`. -/
def execLdVxVy (x y : Nibble) (s : State) : Result := .next (writeVx s x (getV s y))

/-- `8XY1` (R154): `V[X] <- a | b`, no flag. -/
def execOr (x y : Nibble) (s : State) : Result := .next (writeVx s x (getV s x ||| getV s y))

/-- `8XY2` (R155): `V[X] <- a & b`, no flag. -/
def execAnd (x y : Nibble) (s : State) : Result := .next (writeVx s x (getV s x &&& getV s y))

/-- `8XY3` (R156): `V[X] <- a ^ b`, no flag. -/
def execXor (x y : Nibble) (s : State) : Result := .next (writeVx s x (getV s x ^^^ getV s y))

/-- `8XY4` (R157): carry into VF, then `V[X] <- trunc_8(a + b)`. -/
def execAddVxVy (x y : Nibble) (s : State) : Result :=
  .next (writeFlagged s x (addCarry (getV s x) (getV s y)) (addResult (getV s x) (getV s y)))

/-- `8XY5` (R158): not-borrow of a - b into VF, then `V[X] <- trunc_8(a + 256 - b)`. -/
def execSub (x y : Nibble) (s : State) : Result :=
  .next (writeFlagged s x (subNoBorrow (getV s x) (getV s y)) (subResult (getV s x) (getV s y)))

/-- `8XY6` (R159): `a & 1` into VF, then `V[X] <- a >> 1`; Y is not read (R76). -/
def execShr (x _y : Nibble) (s : State) : Result :=
  .next (writeFlagged s x (shrOut (getV s x)) (shrResult (getV s x)))

/-- `8XY7` (R160): not-borrow of b - a into VF, then `V[X] <- trunc_8(b + 256 - a)`. -/
def execSubn (x y : Nibble) (s : State) : Result :=
  .next (writeFlagged s x (subNoBorrow (getV s y) (getV s x)) (subResult (getV s y) (getV s x)))

/-- `8XYE` (R161): `(a >> 7) & 1` into VF, then `V[X] <- trunc_8(a << 1)`; Y is not read (R76). -/
def execShl (x _y : Nibble) (s : State) : Result :=
  .next (writeFlagged s x (shlOut (getV s x)) (shlResult (getV s x)))

/-- `CXNN` (R162): `V[X] <- rnd & NN`, with the step's input `rnd` (D2, log entry 2). -/
def execRnd (x : Nibble) (nn : Byte) (s : State) : Result := .next (writeVx s x (s.rnd &&& nn))

end Sys2Proof.Machine
end

