-- ==== Sys2Proof/Machine/Control.lean ====
section
/-! DEFINITION. The control-transfer instructions (spec/42_control_flow.md R131 to R138). None writes a flag. -/

namespace Sys2Proof.Machine

/-- `00EE` (R131): StackUnderflow if SP = 0; else pop and `pc <- popped + 2` (R139). -/
def execRet (s : State) : Result :=
  match pop s with
  | none => raise .stackUnderflow (some (encode .ret)) none s
  | some (v, t) => .next (jumpTo t (trunc16 (v.toNat + 2)))

/-- `1NNN` (R132): `pc <- zext_16(NNN)`. -/
def execJp (nnn : Addr12) (s : State) : Result := .next (jumpTo s (zext16 nnn))

/-- `2NNN` (R133): StackOverflow if SP = 16; else push the address of this CALL (R139) and `pc <- zext_16(NNN)`. -/
def execCall (nnn : Addr12) (s : State) : Result :=
  match push s s.pc with
  | none => raise .stackOverflow (some (encode (.call nnn))) none s
  | some t => .next (jumpTo t (zext16 nnn))

/-- `3XNN` (R134): skip if `V[X] == NN`. -/
def execSeVxNn (x : Nibble) (nn : Byte) (s : State) : Result := .next (skipIf (getV s x == nn) s)

/-- `4XNN` (R135): skip if `V[X] != NN`. -/
def execSneVxNn (x : Nibble) (nn : Byte) (s : State) : Result := .next (skipIf (getV s x != nn) s)

/-- `5XY0` (R136): skip if `V[X] == V[Y]`. -/
def execSeVxVy (x y : Nibble) (s : State) : Result := .next (skipIf (getV s x == getV s y) s)

/-- `9XY0` (R137): skip if `V[X] != V[Y]`. -/
def execSneVxVy (x y : Nibble) (s : State) : Result := .next (skipIf (getV s x != getV s y) s)

/-- `BNNN` (R138): `pc <- trunc_16(zext_16(NNN) + V[0])`; the offset register is always V[0]. -/
def execJpV0 (nnn : Addr12) (s : State) : Result :=
  .next (jumpTo s (trunc16 ((zext16 nnn).toNat + (getV s 0x0#4).toNat)))

end Sys2Proof.Machine
end

