-- ==== Sys2Proof/Machine/Display.lean ====
section
/-! DEFINITION. The display instructions (spec/41_display.md R111 to R116). -/

namespace Sys2Proof.Machine

/-- `00E0` (R111): every pixel unlit, `redraw <- true`, VF not written. -/
def execCls (s : State) : Result := .next (advance { s with fb := clearScreen, redraw := true })

/-- The drawing that `DXYN` makes: N rows from `mem[I]` at (V[X], V[Y]), both coordinates read first (R112). -/
def spriteDrawing (x y n : Nibble) (s : State) : Drawing :=
  drawRows { fb := s.fb, collision := false } (getV s x).toNat (getV s y).toNat
    (s.mem.readBytes s.font s.I.toNat n.toNat)

/-- `DXYN` (R112): all N reads are checked first, clipped rows too (D10, log entry 8); then the XOR-blit, `VF` is the
collision and `redraw <- true`. -/
def execDrw (x y n : Nibble) (s : State) : Result :=
  match readFault s.I.toNat n.toNat with
  | some (k, a) => raise k (some (encode (.drw x y n))) (some a) s
  | none =>
    .next (advance (setV { s with fb := (spriteDrawing x y n s).fb, redraw := true } VF
      (flagByte (spriteDrawing x y n s).collision)))

end Sys2Proof.Machine
end

