-- ==== Sys2Proof/Machine/IndexMemory.lean ====
section
/-! DEFINITION. The index register and the memory transfers (spec/44_index_memory.md R180 to R185). All checks come before the
first write (R97), and no transfer changes `I`. -/

namespace Sys2Proof.Machine

/-- `ANNN` (R180): `I <- zext_16(NNN)`. -/
def execLdINnn (nnn : Addr12) (s : State) : Result := .next (advance { s with I := zext16 nnn })

/-- `FX1E` (R181): `I <- trunc_16(I + V[X])`, no flag. -/
def execAddIVx (x : Nibble) (s : State) : Result :=
  .next (advance { s with I := trunc16 (s.I.toNat + (getV s x).toNat) })

/-- `FX29` (R182): `I <- 5 * V[X]`, not masked to the low digit (C3, log entry 10). -/
def execLdFVx (x : Nibble) (s : State) : Result :=
  .next (advance { s with I := trunc16 (5 * (getV s x).toNat) })

/-- `FX33` (R183): the three decimal digits of `V[X]` to `mem[I]`, `mem[I+1]`, `mem[I+2]`. -/
def execLdBVx (x : Nibble) (s : State) : Result :=
  match writeFault s.I.toNat 3 with
  | some (k, a) => raise k (some (encode (.ldBVx x))) (some a) s
  | none => .next (advance (storeBytes s s.I.toNat (decimalDigits (getV s x))))

/-- `FX55` (R184): `V[0..X]` to `mem[I .. I+X]`. -/
def execLdMiVx (x : Nibble) (s : State) : Result :=
  match writeFault s.I.toNat (upTo x) with
  | some (k, a) => raise k (some (encode (.ldMiVx x))) (some a) s
  | none => .next (advance (storeBytes s s.I.toNat (regsUpTo s x)))

/-- `FX65` (R185): `mem[I .. I+X]` to `V[0..X]`. -/
def execLdVxMi (x : Nibble) (s : State) : Result :=
  match readFault s.I.toNat (upTo x) with
  | some (k, a) => raise k (some (encode (.ldVxMi x))) (some a) s
  | none => .next (advance { s with V := loadRegs s s.I.toNat (upTo x) s.V })

end Sys2Proof.Machine
end

