-- ==== Sys2Proof/Machine/KeypadTimers.lean ====
section
/-! DEFINITION. The keypad and timer instructions (spec/45_keypad_timers.md R200 to R206). Keys are the latches as the host left
them before the step (R100); the step's ticks come after the instruction (R96). -/

namespace Sys2Proof.Machine

/-- `EX9E` (R200): KeyIndexOutOfRange if `V[X] > 15` (R206; D7, log entry 9); else skip if the key is pressed. -/
def execSkp (x : Nibble) (s : State) : Result :=
  if 15 < (getV s x).toNat then
    raise .keyIndexOutOfRange (some (encode (.skp x))) (some (getV s x).toNat) s
  else .next (skipIf (keyDown s ((getV s x).setWidth 4)) s)

/-- `EXA1` (R201): KeyIndexOutOfRange if `V[X] > 15` (R206; D7, log entry 9); else skip if the key is not pressed. -/
def execSknp (x : Nibble) (s : State) : Result :=
  if 15 < (getV s x).toNat then
    raise .keyIndexOutOfRange (some (encode (.sknp x))) (some (getV s x).toNat) s
  else .next (skipIf (!keyDown s ((getV s x).setWidth 4)) s)

/-- `FX07` (R202): `V[X] <- DT`, as it is before this step's ticks. -/
def execLdVxDt (x : Nibble) (s : State) : Result := .next (writeVx s x s.DT)

/-- `FX0A` (R203): with no key pressed `pc <- p` and nothing else; else the lowest pressed key into `V[X]` (D17, log
entry 12). -/
def execLdVxK (x : Nibble) (s : State) : Result :=
  .next (match lowestKey s with
    | none => s
    | some k => writeVx s x (k.setWidth 8))

/-- `FX15` (R204): `DT <- V[X]`. -/
def execLdDtVx (x : Nibble) (s : State) : Result := .next (advance { s with DT := getV s x })

/-- `FX18` (R205): `ST <- V[X]`; the write itself never raises `sound_out`. -/
def execLdStVx (x : Nibble) (s : State) : Result := .next (advance { s with ST := getV s x })

end Sys2Proof.Machine
end

