-- ==== Sys2Proof/Machine/Dispatch.lean ====
section
/-! DEFINITION. The dispatch (spec/40_cycle.md R94): the decoded instruction selects exactly one instruction rule. -/

namespace Sys2Proof.Machine

/-- `Exec(ins, s, rnd)` of R99; `rnd` is the input the state holds. -/
def exec (i : Instr) (s : State) : Host.Outcome State Fault Refusal :=
  match i with
  | .cls => Sys2Proof.Machine.execCls s
  | .ret => Sys2Proof.Machine.execRet s
  | .jp nnn => Sys2Proof.Machine.execJp nnn s
  | .call nnn => Sys2Proof.Machine.execCall nnn s
  | .seVxNn x nn => Sys2Proof.Machine.execSeVxNn x nn s
  | .sneVxNn x nn => Sys2Proof.Machine.execSneVxNn x nn s
  | .seVxVy x y => Sys2Proof.Machine.execSeVxVy x y s
  | .ldVxNn x nn => Sys2Proof.Machine.execLdVxNn x nn s
  | .addVxNn x nn => Sys2Proof.Machine.execAddVxNn x nn s
  | .ldVxVy x y => Sys2Proof.Machine.execLdVxVy x y s
  | .or x y => Sys2Proof.Machine.execOr x y s
  | .and x y => Sys2Proof.Machine.execAnd x y s
  | .xor x y => Sys2Proof.Machine.execXor x y s
  | .addVxVy x y => Sys2Proof.Machine.execAddVxVy x y s
  | .sub x y => Sys2Proof.Machine.execSub x y s
  | .shr x y => Sys2Proof.Machine.execShr x y s
  | .subn x y => Sys2Proof.Machine.execSubn x y s
  | .shl x y => Sys2Proof.Machine.execShl x y s
  | .sneVxVy x y => Sys2Proof.Machine.execSneVxVy x y s
  | .ldINnn nnn => Sys2Proof.Machine.execLdINnn nnn s
  | .jpV0 nnn => Sys2Proof.Machine.execJpV0 nnn s
  | .rnd x nn => Sys2Proof.Machine.execRnd x nn s
  | .drw x y n => Sys2Proof.Machine.execDrw x y n s
  | .skp x => Sys2Proof.Machine.execSkp x s
  | .sknp x => Sys2Proof.Machine.execSknp x s
  | .ldVxDt x => Sys2Proof.Machine.execLdVxDt x s
  | .ldVxK x => Sys2Proof.Machine.execLdVxK x s
  | .ldDtVx x => Sys2Proof.Machine.execLdDtVx x s
  | .ldStVx x => Sys2Proof.Machine.execLdStVx x s
  | .addIVx x => Sys2Proof.Machine.execAddIVx x s
  | .ldFVx x => Sys2Proof.Machine.execLdFVx x s
  | .ldBVx x => Sys2Proof.Machine.execLdBVx x s
  | .ldMiVx x => Sys2Proof.Machine.execLdMiVx x s
  | .ldVxMi x => Sys2Proof.Machine.execLdVxMi x s

end Sys2Proof.Machine
end

