-- ==== Sys2Proof/Machine/HostPort.lean ====
section
/-! DEFINITION. The host's interface (spec/10_state.md R37, spec/60_exceptions.md R227, R245 to R248, spec/70_reset_and_hazards.md
R262, R263): what the host may do between steps, and one host turn. -/

namespace Sys2Proof.Machine

/-- The host-interface errors (R227): returned by the call, never latched, and no state changes. -/
inductive HostError where
  /-- `load` of more than 3584 bytes (R227, R262). -/
  | loadCapacityExceeded
  /-- `set_key(k, p)` with k above 15 (R227, R245). -/
  | keyIndexInvalid
deriving DecidableEq, Repr

/-- The latches after `set_key(k, p)` (R245); with k above 15 nothing changes (U9). -/
def writeKey (key : Vector Bool 16) (k : Nat) (p : Bool) : Vector Bool 16 := key.setIfInBounds k p

/-- `set_key(k, p)` (R227, R245). -/
def setKey (k : Nat) (p : Bool) (s : State) : Except HostError State :=
  if k ≤ 15 then .ok { s with key := writeKey s.key k p } else .error .keyIndexInvalid

/-- `clear_redraw` (R246). -/
def clearRedraw (s : State) : State := { s with redraw := false }

/-- `load(bytes)` (R262): the check before any write, then `mem[0x200 + k] <- bytes[k]`. It belongs on a freshly
constructed machine (R263; D18, log entry 13). -/
def load (bytes : List Byte) (s : State) : Except HostError State :=
  if Config.loadCapacity < bytes.length then .error .loadCapacityExceeded
  else .ok (storeBytes s Config.progBase bytes)

/-- The output `result` of the last step (R37): `none` is ok, else the fault record (R91, R97, R99). -/
def State.result (s : State) : Option FaultRecord := s.fault

/-- The host's view of the framebuffer: row-major, the pixel (x, y) at index y * 64 + x (R30, R117). -/
def hostView (s : State) : List Bool := s.fb.toList.flatMap fun row => row.toList

/-- The n-th turn where the state does not decide it: the free values of Config (log entries 2 and 3). -/
def freeTurn (n : Nat) : HostTurn :=
  { keyWrites := Config.freeKeyWrites n
    clearRedraw := Config.freeClearRedraw n
    ticks := Config.freeTicks n
    rnd := Config.freeRnd n }

/-- The turn the host takes now: the first decided one, else a free one. -/
def currentTurn (s : State) : HostTurn :=
  match s.turns with
  | t :: _ => t
  | [] => freeTurn s.turnNo

/-- The latches after the turn's `set_key` calls, in order (R245, R263). -/
def writeKeys (key : Vector Bool 16) (ws : List (Nat × Bool)) : Vector Bool 16 :=
  ws.foldl (fun key w => writeKey key w.1 w.2) key

/-- One host turn, between two steps (R100, R263): the key writes, `clear_redraw` if the host calls it, and the inputs the
coming step samples. The host reaches nothing else (R64). -/
def takeTurn (s : State) : State :=
  { s with
    key := writeKeys s.key (currentTurn s).keyWrites
    redraw := s.redraw && !(currentTurn s).clearRedraw
    ticks := (currentTurn s).ticks
    rnd := (currentTurn s).rnd
    turns := s.turns.tail
    turnNo := s.turnNo + 1 }

end Sys2Proof.Machine
end

