-- ==== Sys2Proof/Machine/Timers.lean ====
section
/-! DEFINITION. The timer block (spec/60_exceptions.md R240 to R243) and the timer phase of a step (spec/40_cycle.md R96). -/

namespace Sys2Proof.Machine

/-- The two timers, and whether one of the step's ticks has taken ST from 1 to 0 so far (R240, R242). -/
structure TimerBlock where
  DT : Byte
  ST : Byte
  edge : Bool
deriving DecidableEq, Repr

/-- A timer one tick later: one less while greater than zero, and 0 stays 0 (R240). -/
def countDown (v : Byte) : Byte := if v = 0 then 0 else trunc8 (v.toNat - 1)

/-- One tick (R240); the edge is kept once seen (R242; D19, log entry 6). -/
def tick (t : TimerBlock) : TimerBlock :=
  { DT := countDown t.DT, ST := countDown t.ST, edge := t.edge || t.ST == 1 }

/-- `n` ticks, one after another (R96). -/
def tickTimes : Nat → TimerBlock → TimerBlock
  | 0, t => t
  | n + 1, t => tickTimes n (tick t)

/-- The timers of a state, before any tick of the step. -/
def timersOf (s : State) : TimerBlock := { DT := s.DT, ST := s.ST, edge := false }

/-- The timer phase (R96, R99): the step's `ticks` are applied and `sound_out` is the edge. -/
def timerPhase (s : State) : State :=
  { s with
    DT := (tickTimes s.ticks (timersOf s)).DT
    ST := (tickTimes s.ticks (timersOf s)).ST
    soundOut := (tickTimes s.ticks (timersOf s)).edge }

end Sys2Proof.Machine
end

