-- ==== Sys2Proof/Machine/Cycle.lean ====
section
/-! DEFINITION. The core's step (spec/40_cycle.md R90 to R99): halted check, fetch, decode, execute, timer phase. -/

namespace Sys2Proof.Machine

/-- Fetch (R92): the two bytes at pc and pc + 1, big-endian (R56), or the first of the two addresses that is out of
range. -/
def fetch (s : State) : Except Nat Word :=
  match readFault s.pc.toNat 2 with
  | some (_, a) => .error a
  | none => .ok (byteAt s s.pc.toNat ++ byteAt s (s.pc.toNat + 1))

/-- `sound_out` is false at the start of every step (R242). -/
def quiet (s : State) : State := { s with soundOut := false }

/-- The end of a step after the execute phase (R96, R97): the timer phase, unless the instruction raised a fault. -/
def finish : Result → Result
  | .next t => .next (if t.fault.isSome then t else timerPhase t)
  | .fault r => .fault r
  | .refused r => .refused r

/-- Decode, execute and timer phase for the fetched word (R93, R94, R96). -/
def runWord (w : Word) (s : State) : Result :=
  match decodeWord w with
  | .error _ => raise .illegalOpcode (some w) (some w.toNat) s
  | .ok i => finish (exec i s)

/-- `Step(s, ticks, rnd)` of R99, on the inputs the state holds. A halted machine's step changes nothing (R91). -/
def cycle (s : State) : Result :=
  if s.fault.isSome then .next (quiet s)
  else
    match fetch (quiet s) with
    | .error a => raise .addressOutOfRange none (some a) (quiet s)
    | .ok w => runWord w (quiet s)

end Sys2Proof.Machine
end

