-- ==== Sys2Proof/Machine/Step.lean ====
section
/-! DEFINITION. One step of the model: the host's turn between two steps (spec/40_cycle.md R100) and the core's step on the inputs
of that turn (R99); and the placing of a word where the next step fetches it. -/

namespace Sys2Proof.Machine

/-- One step: the host's turn, then the core's step (R100). -/
def step (s : State) : Host.Outcome State Fault Refusal := cycle (takeTurn s)

/-- The state with an instruction's two bytes at pc and pc + 1, high byte first (R56); a byte whose address does not exist
(R50) is not stored. -/
def State.withFetchWord (s : State) (nbits w : Nat) : State :=
  storeBytes s s.pc.toNat ((wordBytes (BitVec.ofNat 16 (w % 2 ^ nbits))).take (Config.memSize - s.pc.toNat))

end Sys2Proof.Machine
end

