-- ==== Sys2Proof/Safety.lean ====
section
/-! DEFINITION. What counts as a safe state, the invariant of the machine, and the states the machine reaches. -/

namespace Sys2Proof.Machine

/-- No fault is latched: the machine is not halted (spec/10_state.md R32). -/
def Running (s : State) : Prop := s.fault = none

/-- The font region reads as the parameter FONT the machine was constructed with (spec/20_memory.md R52: "never mutated
afterward"; spec decision D8). -/
def FontIntact (s : State) : Prop := ∀ a (h : a < 80), byteAt s a = s.font[a]'h

/-- The bounds of the pc and of the occupied stack slots that spec/10_state.md R25 derives. -/
def PcBounded (s : State) : Prop :=
  s.pc.toNat ≤ 0x10FE ∧ ∀ k (h : k < 16), k < s.SP.val → (s.stack[k]'h).toNat ≤ 0xFFE

/-- The invariant: memory is in canonical form, the font is intact, and pc and return addresses are bounded. -/
def Inv (s : State) : Prop := s.mem.wf s.font = true ∧ FontIntact s ∧ PcBounded s

/-- The states a run reaches (spec/70_reset_and_hazards.md R263): a machine freshly constructed with any font, with a
program image loaded and any turns of the host decided in advance, and after that steps and the host's own calls in any order. -/
inductive Reachable : State → Prop where
  | boot (font : Font) (bytes : List Byte) (turns : List HostTurn) (s : State)
      (h : load bytes { State.construct font with turns := turns } = .ok s) : Reachable s
  | step (s t : State) (hs : Reachable s) (h : Machine.step s = .next t) : Reachable t
  | setKey (k : Nat) (p : Bool) (s t : State) (hs : Reachable s) (h : Machine.setKey k p s = .ok t) : Reachable t
  | clearRedraw (s : State) (hs : Reachable s) : Reachable (Machine.clearRedraw s)

end Sys2Proof.Machine
end

