-- ==== Sys2Proof/Certificates/Slice0/Obligations.lean ====
section
/-! DEFINITION. The statements for the provers. Each docstring names the rules of spec/ it formalises. Where a clause rests on a
decision that the spec marks as its own (D<n> of spec/92_eei_decisions.md) the docstring names it. -/

namespace Sys2Proof.Frame

open Sys2Proof.Machine

/-- Every byte of memory reads as before. -/
def SameBytes (s t : State) : Prop := ∀ a, byteAt t a = byteAt s a

/-- Every byte outside the `n` bytes from `base` reads as before. -/
def SameBytesOutside (s t : State) (base n : Nat) : Prop :=
  ∀ a, (a < base ∨ base + n ≤ a) → byteAt t a = byteAt s a

/-- Every register that `P` does not name is unchanged. -/
def SameRegsBut (s t : State) (P : Nibble → Prop) : Prop := ∀ r, ¬ P r → getV t r = getV s r

/-- Nothing but the pc may differ; every byte of memory reads as before. -/
def OnlyPc (s t : State) : Prop := t = { s with pc := t.pc } ∧ SameBytes s t

/-- Nothing but general registers and the pc may differ; every byte of memory reads as before. -/
def OnlyVPc (s t : State) : Prop := t = { s with V := t.V, pc := t.pc } ∧ SameBytes s t

/-- Nothing but I and the pc may differ; every byte of memory reads as before. -/
def OnlyIPc (s t : State) : Prop := t = { s with I := t.I, pc := t.pc } ∧ SameBytes s t

/-- `pc <- p + 2`, as R25 writes it: modulo 2^16. -/
def PcPlus2 (s t : State) : Prop := t.pc.toNat = (s.pc.toNat + 2) % 65536

/-- The word of `i` matches the mask and the value of its row (R75). -/
def Encoded (i : Instr) (mask value : Word) : Prop := encode i &&& mask = value

/-- The next fetch of `t` raises AddressOutOfRange. -/
def NextFetchFaults (t : State) : Prop := ∃ a, fetch t = .error a

/-- The instruction `i` answers the state that differs from `s` in the fault latch alone, with this record (R97, R98). -/
def Raises (i : Instr) (s : State) (k : FaultKind) (info : Option Nat) : Prop :=
  exec i s = .next { s with fault := some { kind := k, pc := s.pc, opcode := some (encode i), info := info } }

/-- The general registers that R23 lets an instruction write: V[X], VF as a flag, V[0..X]. -/
def MayWrite : Instr → Nibble → Prop
  | .ldVxNn x _, r | .addVxNn x _, r | .ldVxVy x _, r | .or x _, r | .and x _, r | .xor x _, r | .rnd x _, r
  | .ldVxDt x, r | .ldVxK x, r => r = x
  | .addVxVy x _, r | .sub x _, r | .shr x _, r | .subn x _, r | .shl x _, r => r = x ∨ r = 0xF#4
  | .drw _ _ _, r => r = 0xF#4
  | .ldVxMi x, r => r.toNat ≤ x.toNat
  | .cls, _ | .ret, _ | .jp _, _ | .call _, _ | .seVxNn _ _, _ | .sneVxNn _ _, _ | .seVxVy _ _, _ | .sneVxVy _ _, _
  | .ldINnn _, _ | .jpV0 _, _ | .skp _, _ | .sknp _, _ | .ldDtVx _, _ | .ldStVx _, _ | .addIVx _, _ | .ldFVx _, _
  | .ldBVx _, _ | .ldMiVx _, _ => False

/-- The pc after an instruction that raises no fault, as a natural before `trunc_16`: the table of R95. -/
def pcAfter (s : State) : Instr → Nat
  | .jp nnn => nnn.toNat
  | .call nnn => nnn.toNat
  | .jpV0 nnn => nnn.toNat + (getV s 0x0#4).toNat
  | .ret => (s.stack.toList.getD (s.SP.val - 1) 0).toNat + 2
  | .seVxNn x nn => s.pc.toNat + if getV s x = nn then 4 else 2
  | .sneVxNn x nn => s.pc.toNat + if getV s x ≠ nn then 4 else 2
  | .seVxVy x y => s.pc.toNat + if getV s x = getV s y then 4 else 2
  | .sneVxVy x y => s.pc.toNat + if getV s x ≠ getV s y then 4 else 2
  | .skp x => s.pc.toNat + if s.key.toList.getD (getV s x).toNat false = true then 4 else 2
  | .sknp x => s.pc.toNat + if s.key.toList.getD (getV s x).toNat false = false then 4 else 2
  | .ldVxK _ => s.pc.toNat + if ∃ k, keyDown s k = true then 2 else 0
  | .cls | .ldVxNn _ _ | .addVxNn _ _ | .ldVxVy _ _ | .or _ _ | .and _ _ | .xor _ _ | .addVxVy _ _ | .sub _ _
  | .shr _ _ | .subn _ _ | .shl _ _ | .ldINnn _ | .rnd _ _ | .drw _ _ _ | .ldVxDt _ | .ldDtVx _ | .ldStVx _
  | .addIVx _ | .ldFVx _ | .ldBVx _ | .ldMiVx _ | .ldVxMi _ => s.pc.toNat + 2

/-- Which fault an instruction raises, when, and with which info (R222 to R226, R228): for the bytes it accesses, the lowest
address of 4096 or more among them, or the lowest of 0x04F or less among those it writes. -/
def RaisedAs (s : State) : Instr → FaultKind → Option Nat → Prop
  | .call _, .stackOverflow, info => s.SP.val = 16 ∧ info = none
  | .ret, .stackUnderflow, info => s.SP.val = 0 ∧ info = none
  | .skp x, .keyIndexOutOfRange, info => 15 < (getV s x).toNat ∧ info = some (getV s x).toNat
  | .sknp x, .keyIndexOutOfRange, info => 15 < (getV s x).toNat ∧ info = some (getV s x).toNat
  | .drw _ _ n, .addressOutOfRange, info =>
    0 < n.toNat ∧ 4096 < s.I.toNat + n.toNat ∧ info = some (max s.I.toNat 4096)
  | .ldVxMi x, .addressOutOfRange, info => 4096 < s.I.toNat + x.toNat + 1 ∧ info = some (max s.I.toNat 4096)
  | .ldBVx _, .addressOutOfRange, info => 4096 < s.I.toNat + 3 ∧ info = some (max s.I.toNat 4096)
  | .ldMiVx x, .addressOutOfRange, info => 4096 < s.I.toNat + x.toNat + 1 ∧ info = some (max s.I.toNat 4096)
  | .ldBVx _, .romWrite, info => s.I.toNat ≤ 0x04F ∧ info = some s.I.toNat
  | .ldMiVx _, .romWrite, info => s.I.toNat ≤ 0x04F ∧ info = some s.I.toNat
  | _, _, _ => False

/-- The sprite bit that DRW x y n draws at the pixel (px, py): bit 7 - c of the byte at I + r, for px = V[x] + c with c
below 8 and py = V[y] + r with r below n; none elsewhere (R112, R113; D9, D10). -/
def spriteBit (s : State) (x y n : Nibble) (px py : Nat) : Bool :=
  decide ((getV s x).toNat ≤ px ∧ px < (getV s x).toNat + 8 ∧ (getV s y).toNat ≤ py ∧ py < (getV s y).toNat + n.toNat) &&
    (byteAt s (s.I.toNat + (py - (getV s y).toNat))).getLsbD (7 - (px - (getV s x).toNat))

/-- Some pixel of the screen is lit and has a set sprite bit (R115). -/
def Collides (s : State) (x y n : Nibble) : Prop :=
  ∃ px py, px < 64 ∧ py < 32 ∧ spriteBit s x y n px py = true ∧ pixel s.fb px py = true

/-- What the address `a` holds after FX33 x has stored the decimal digits of V[x] at I (R183). -/
def afterDigits (s : State) (x : Nibble) (a : Nat) : Nat :=
  if a = s.I.toNat then (getV s x).toNat / 100
  else if a = s.I.toNat + 1 then (getV s x).toNat / 10 % 10
  else if a = s.I.toNat + 2 then (getV s x).toNat % 10
  else (byteAt s a).toNat

/-- What the address `a` holds after FX55 x has stored V[0..x] at I (R184). -/
def afterRegisters (s : State) (x : Nibble) (a : Nat) : Nat :=
  if s.I.toNat ≤ a ∧ a ≤ s.I.toNat + x.toNat then (getV s (BitVec.ofNat 4 (a - s.I.toNat))).toNat
  else (byteAt s a).toNat

/-- The value of the last `set_key` call of a list for the key `k`, if there is one. -/
def lastKeyWrite (ws : List (Nat × Bool)) (k : Nat) : Option Bool := (ws.reverse.find? fun w => w.1 == k).map fun w => w.2

end Sys2Proof.Frame

open Sys2Proof Sys2Proof.Machine Sys2Proof.Frame

/-! ## Encoding -/

/-- Decode and encode agree: no operand bit of any instruction is lost (R72, R74, R75, R76). -/
def Obligations.DecodeOfEncodeIsInstruction : Prop := ∀ i : Instr, decodeWord (encode i) = .ok i

/-- R76: "encoding the decoded term gives back the original word"; every legal word has one meaning. -/
def Obligations.EncodeOfDecodedIsWord : Prop := ∀ (w : Word) (i : Instr), decodeWord w = .ok i → encode i = w

/-- R75: a word is the instruction of a row exactly when w & mask = match. -/
def Obligations.WordIsInstructionOfMatchedRow : Prop :=
  opcodeRows.length = 34 ∧
  (∀ (w : Word) (i : Instr), decodeWord w = .ok i → rowOf i ∈ opcodeRows ∧ w &&& (rowOf i).mask = (rowOf i).value) ∧
  (∀ (w : Word) (r : OpcodeRow), r ∈ opcodeRows → w &&& r.mask = r.value → ∃ i, decodeWord w = .ok i ∧ rowOf i = r)

/-- R77 (which the spec derives): no word matches two rows. -/
def Obligations.NoWordMatchesTwoRows : Prop :=
  ∀ (w : Word) (r q : OpcodeRow), r ∈ opcodeRows → q ∈ opcodeRows → r.matchesWord w = true → q.matchesWord w = true → r = q

/-- R78, R221: the words of the five lists are exactly those that decode to nothing, and fetching one raises IllegalOpcode
with the word and the pc, after which the core's step gives the same state again (that a halted step changes nothing at all:
spec decision D5, log entry 11). -/
def Obligations.IllegalWordsRaiseIllegalOpcode : Prop :=
  (∀ w : Word, decodeWord w = .error (.illegal w) ↔ wordIllegal w = true) ∧
  (∀ (w : Word) (i : Instr), decodeWord w = .ok i → wordIllegal w = false) ∧
  (∀ (s : State) (w : Word), s.fault = none → fetch s = .ok w → wordIllegal w = true →
    ∃ t r, cycle s = .next t ∧ t.fault = some r ∧ r.kind = .illegalOpcode ∧ r.pc = s.pc ∧ r.opcode = some w ∧
      r.info = some w.toNat ∧ cycle t = .next t)

/-- The decode examples of spec/95_test_vectors.md 2.1 and two words written out from the patterns of R75. -/
def Obligations.WordsDecodeAsWrittenOut : Prop :=
  decodeWord 0b1000101010110110#16 = .ok (.shr 0xA#4 0xB#4) ∧
  decodeWord 0b0101101010110000#16 = .ok (.seVxVy 0xA#4 0xB#4) ∧
  decodeWord 0b1101000100101111#16 = .ok (.drw 0x1#4 0x2#4 0xF#4) ∧
  decodeWord 0b1011101010111100#16 = .ok (.jpV0 0xABC#12) ∧
  decodeWord 0b1111000101100101#16 = .ok (.ldVxMi 0x1#4) ∧
  decodeWord 0b0000000011101110#16 = .ok .ret ∧
  decodeWord 0b0110101001111011#16 = .ok (.ldVxNn 0xA#4 0x7B#8) ∧
  decodeWord 0b0000000000000000#16 = .error (.illegal 0x0000#16)

/-! ## The step -/

/-- R92 and R56: the fetch composes the bytes at pc and pc + 1 big-endian, and an address of 4096 or more among them,
the lower one first, raises AddressOutOfRange with no opcode in the record. -/
def Obligations.FetchIsBigEndianAndRangeChecked : Prop :=
  (∀ s : State, s.pc.toNat + 1 < 4096 →
    ∃ w, fetch s = .ok w ∧
      w.toNat = 256 * (byteAt s s.pc.toNat).toNat + (byteAt s (s.pc.toNat + 1)).toNat) ∧
  (∀ s : State, s.fault = none → 4096 ≤ s.pc.toNat →
    ∃ t r, cycle s = .next t ∧ t.fault = some r ∧ r.kind = .addressOutOfRange ∧ r.pc = s.pc ∧ r.opcode = none ∧
      r.info = some s.pc.toNat) ∧
  (∀ s : State, s.fault = none → s.pc.toNat = 0xFFF →
    ∃ t r, cycle s = .next t ∧ t.fault = some r ∧ r.kind = .addressOutOfRange ∧ r.pc = s.pc ∧ r.opcode = none ∧
      r.info = some 0x1000)

/-- R99, R100: when the two bytes at the pc of a running machine decode to i, a step is the host's turn, sound_out set
false, exec of i, and then (where exec latched no fault) the timer phase. -/
def Obligations.StepRunsDecodedInstruction : Prop :=
  ∀ (s : State) (i : Instr), s.fault = none → s.pc.toNat + 1 < 4096 →
    decodeBytes [byteAt s s.pc.toNat, byteAt s (s.pc.toNat + 1)] = .ok (i, []) →
    step s = finish (exec i (quiet (takeTurn s))) ∧
    (∀ t, exec i (quiet (takeTurn s)) = .next t →
      (t.fault = none → step s = .next (timerPhase t)) ∧ (t.fault ≠ none → step s = .next t))

/-- R91 (spec decision D5): the core's step of a halted machine changes nothing, and its output sound_out is false. -/
def Obligations.HaltedCycleChangesNothing : Prop :=
  ∀ (s : State) (r : FaultRecord), s.fault = some r →
    cycle s = .next { s with soundOut := false } ∧
    ∀ t, cycle s = .next t → t.result = some r

/-- R97, R98 (spec decision D5): a step that raises a fault sets the latch and changes nothing else, sound_out is false,
and the record holds the pc of the fetch and the fetched word, or none for a fetch fault. -/
def Obligations.FaultingCycleChangesOnlyLatch : Prop :=
  ∀ (s t : State) (r : FaultRecord), s.fault = none → cycle s = .next t → t.fault = some r →
    t = { s with fault := some r, soundOut := false } ∧ r.pc = s.pc ∧
    (∀ w, fetch s = .ok w → r.opcode = some w) ∧ (∀ a, fetch s = .error a → r.opcode = none)

/-- R103: every step of the core answers a next state, whatever the state. -/
def Obligations.EveryCycleAnswersNextState : Prop :=
  ∀ s : State, (∃ t, cycle s = .next t) ∧ (∃ t, step s = .next t)

/-- R240: one tick takes one from each timer that is above zero, leaves a timer at zero, and the event is ST going from 1
to 0; a timer at zero stays at zero through any number of ticks. -/
def Obligations.TickCountsDown : Prop :=
  ∀ t : TimerBlock,
    (0 < t.DT.toNat → (tick t).DT.toNat = t.DT.toNat - 1) ∧ (t.DT.toNat = 0 → (tick t).DT.toNat = 0) ∧
    (0 < t.ST.toNat → (tick t).ST.toNat = t.ST.toNat - 1) ∧ (t.ST.toNat = 0 → (tick t).ST.toNat = 0) ∧
    (t.edge = false → ((tick t).edge = true ↔ t.ST.toNat = 1)) ∧
    (∀ n, t.DT.toNat = 0 → (tickTimes n t).DT.toNat = 0) ∧ (∀ n, t.ST.toNat = 0 → (tickTimes n t).ST.toNat = 0)

/-- R96, R241, R242 (spec decisions D1, D19): after an instruction that raises no fault the step's ticks lower both
timers, never below zero, sound_out is true exactly when a tick took ST from 1 to 0, and nothing else changes. -/
def Obligations.TimerPhaseAppliesTicks : Prop :=
  ∀ (i : Instr) (s t : State), exec i s = .next t → t.fault = none →
    ∃ u, finish (exec i s) = .next u ∧
      u.DT.toNat = t.DT.toNat - t.ticks ∧ u.ST.toNat = t.ST.toNat - t.ticks ∧
      (u.soundOut = true ↔ 1 ≤ t.ST.toNat ∧ t.ST.toNat ≤ t.ticks) ∧
      u = { t with DT := u.DT, ST := u.ST, soundOut := u.soundOut }

/-! ## Reset and the host's interface -/

/-- R35, R36, R260 (fb, key, redraw, fault and 0x050 to 0x1FF are the spec's decision D16, log entry 5): what construction
leaves, for every value of the parameter FONT; State.reset takes the default of FONT (D11, log entry 4). -/
def Obligations.ResetLeavesConstructionState : Prop :=
  State.reset = State.construct defaultFont ∧
  ∀ (font : Font) (s : State), s = State.construct font →
    (∀ r, getV s r = 0) ∧ s.I = 0 ∧ s.pc = 0x200#16 ∧
    (∀ k (h : k < 16), s.stack[k]'h = 0) ∧ s.SP.val = 0 ∧ s.DT = 0 ∧ s.ST = 0 ∧
    (∀ a (h : a < 80), byteAt s a = font[a]'h) ∧
    (∀ a, 80 ≤ a → a < 4096 → byteAt s a = 0) ∧
    (∀ x y, x < 64 → y < 32 → pixel s.fb x y = false) ∧
    (∀ k, keyDown s k = false) ∧ s.redraw = false ∧ s.fault = none

/-- R262 (a failed load writes nothing: spec decision D18): load copies the image to 0x200 upward and changes nothing
else, or fails when it is longer than 3584 bytes. -/
def Obligations.LoadCopiesImage : Prop :=
  ∀ (bytes : List Byte) (s : State),
    (bytes.length ≤ 3584 → ∃ t, load bytes s = .ok t ∧
      (∀ k (h : k < bytes.length), byteAt t (0x200 + k) = bytes[k]) ∧
      SameBytesOutside s t 0x200 bytes.length ∧ t = { s with mem := t.mem }) ∧
    (3584 < bytes.length → load bytes s = .error .loadCapacityExceeded)

/-- R227, R245, R246 (Boolean latches: spec decision D15; when they land: log entry 3): set_key writes one latch or fails;
a host turn leaves in each latch the last value it was given, clears redraw only by clear_redraw, passes the inputs,
and touches nothing else of the machine. -/
def Obligations.HostTurnReachesOnlyItsPorts : Prop :=
  (∀ (k : Nat) (p : Bool) (s : State), 15 < k → setKey k p s = .error .keyIndexInvalid) ∧
  (∀ (k : Nat) (p : Bool) (s : State), k ≤ 15 → ∃ t, setKey k p s = .ok t ∧
    (∀ j : Nibble, keyDown t j = if j.toNat = k then p else keyDown s j) ∧ t = { s with key := t.key }) ∧
  (∀ (s : State) (e : HostTurn) (rest : List HostTurn), s.turns = e :: rest →
    (∀ j : Nibble, keyDown (takeTurn s) j = (lastKeyWrite e.keyWrites j.toNat).getD (keyDown s j)) ∧
    ((takeTurn s).redraw = true ↔ s.redraw = true ∧ e.clearRedraw = false) ∧
    (takeTurn s).ticks = e.ticks ∧ (takeTurn s).rnd = e.rnd ∧ (takeTurn s).turns = rest) ∧
  (∀ s : State, takeTurn s = { s with
    key := (takeTurn s).key, redraw := (takeTurn s).redraw, ticks := (takeTurn s).ticks, rnd := (takeTurn s).rnd,
    turns := (takeTurn s).turns, turnNo := s.turnNo + 1 })

/-! ## Invariants and whole-machine rules -/

/-- Every step keeps the invariant: canonical memory, the font as constructed (R52, spec decision D8), and the bounds that
R25 derives for the pc and the occupied stack slots. -/
def Obligations.StepKeepsInvariant : Prop := ∀ s t : State, Inv s → step s = .next t → Inv t

/-- The invariant holds after reset. -/
def Obligations.ResetHasInvariant : Prop := Inv State.reset

/-- Every state that a run reaches has the invariant: after construction with any font and load, and under every turn of the
host and every step (R263; the font is not written: spec decision D8, log entry 9; load only on a fresh machine: D18, log
entry 13). -/
def Obligations.ReachableStatesHaveInvariant : Prop := ∀ s : State, Reachable s → Inv s

/-- R32, R91, R231 (spec decision D5): once latched, a fault record stays for good, and V, I, pc, stack, SP, DT, ST, memory
and the framebuffer stay with it through every further step. -/
def Obligations.LatchedFaultFreezesMachine : Prop :=
  ∀ (n : Nat) (s : State) (r : FaultRecord), s.fault = some r →
    ∃ t, Host.Core.run core n s = .next t ∧ t.fault = some r ∧ t.V = s.V ∧ t.I = s.I ∧ t.pc = s.pc ∧
      t.stack = s.stack ∧ t.SP = s.SP ∧ t.DT = s.DT ∧ t.ST = s.ST ∧ t.mem = s.mem ∧ t.fb = s.fb ∧
      t.font = s.font

/-- R23 (which the spec derives): a general register changes only where the table lets the instruction write it. -/
def Obligations.RegistersChangeOnlyAsTabled : Prop :=
  ∀ (i : Instr) (s t : State) (r : Nibble), exec i s = .next t → getV t r ≠ getV s r → MayWrite i r

/-- R26, R27, R28, R29, R30, R31, R58: I, the stack, the timers, the framebuffer, redraw and memory change only by the
instructions named there, the keypad and the step inputs by none, and no instruction sets redraw to false. -/
def Obligations.StateChangesOnlyByNamedInstructions : Prop :=
  ∀ (i : Instr) (s t : State), exec i s = .next t →
    (t.I ≠ s.I → (∃ a, i = .ldINnn a) ∨ (∃ x, i = .addIVx x) ∨ (∃ x, i = .ldFVx x)) ∧
    ((t.stack ≠ s.stack ∨ t.SP ≠ s.SP) → i = .ret ∨ ∃ a, i = .call a) ∧
    (t.stack ≠ s.stack → ∃ a, i = .call a) ∧
    (t.DT ≠ s.DT → ∃ x, i = .ldDtVx x) ∧ (t.ST ≠ s.ST → ∃ x, i = .ldStVx x) ∧
    (t.fb ≠ s.fb → i = .cls ∨ ∃ x y n, i = .drw x y n) ∧
    (t.redraw ≠ s.redraw → t.redraw = true ∧ (i = .cls ∨ ∃ x y n, i = .drw x y n)) ∧
    (∀ a, byteAt t a ≠ byteAt s a → (∃ x, i = .ldBVx x) ∨ ∃ x, i = .ldMiVx x) ∧
    t.key = s.key ∧ t.ticks = s.ticks ∧ t.rnd = s.rnd ∧ t.soundOut = s.soundOut ∧ t.turns = s.turns ∧
    t.turnNo = s.turnNo ∧ t.font = s.font

/-- R95: the pc effect of every instruction (a key index above 15 and a write to the font region fault: spec decisions D7,
D8), and that an instruction that raises a fault leaves the pc (spec decision D5). -/
def Obligations.PcEffectOfEveryInstruction : Prop :=
  ∀ (i : Instr) (s t : State), s.fault = none → exec i s = .next t →
    (t.fault = none → t.pc.toNat = pcAfter s i % 65536) ∧ (t.fault ≠ none → t.pc = s.pc)

/-- R222 to R228 (codes: spec decision D6; unbounded addresses: D4; key index and ROM writes: D7, D8; clipped rows and N = 0:
D10; only the latch changes: D5; log entries 8 to 11): an instruction raises a fault exactly as the table says: which one,
when, and with which info. -/
def Obligations.FaultsRaisedOnlyAsTabled : Prop :=
  (FaultKind.code .illegalOpcode = 1 ∧ FaultKind.code .stackOverflow = 2 ∧ FaultKind.code .stackUnderflow = 3 ∧
    FaultKind.code .addressOutOfRange = 4 ∧ FaultKind.code .keyIndexOutOfRange = 5 ∧ FaultKind.code .romWrite = 6) ∧
  (∀ (i : Instr) (s t : State) (r : FaultRecord), s.fault = none → exec i s = .next t → t.fault = some r →
    RaisedAs s i r.kind r.info ∧ r.opcode = some (encode i) ∧ r.pc = s.pc) ∧
  ∀ (i : Instr) (s : State) (k : FaultKind) (info : Option Nat), RaisedAs s i k info → Raises i s k info

/-! ## Register instructions -/

/-- R151. -/
def Obligations.LoadImmediate : Prop :=
  ∀ (s : State) (x : Nibble) (nn : Byte),
    Encoded (.ldVxNn x nn) 0xF000#16 0x6000#16 ∧
    ∃ t, exec (.ldVxNn x nn) s = .next t ∧ getV t x = nn ∧ PcPlus2 s t ∧ SameRegsBut s t (· = x) ∧ OnlyVPc s t

/-- R152. -/
def Obligations.AddImmediate : Prop :=
  ∀ (s : State) (x : Nibble) (nn : Byte),
    Encoded (.addVxNn x nn) 0xF000#16 0x7000#16 ∧
    ∃ t, exec (.addVxNn x nn) s = .next t ∧ (getV t x).toNat = ((getV s x).toNat + nn.toNat) % 256 ∧ PcPlus2 s t ∧
      SameRegsBut s t (· = x) ∧ OnlyVPc s t

/-- R153. -/
def Obligations.CopyRegister : Prop :=
  ∀ (s : State) (x y : Nibble),
    Encoded (.ldVxVy x y) 0xF00F#16 0x8000#16 ∧
    ∃ t, exec (.ldVxVy x y) s = .next t ∧ getV t x = getV s y ∧ PcPlus2 s t ∧ SameRegsBut s t (· = x) ∧ OnlyVPc s t

/-- R154, R155, R156: OR, AND and XOR bit by bit, with no effect on VF unless X = 0xF. -/
def Obligations.BitwiseOperations : Prop :=
  ∀ (s : State) (x y : Nibble),
    (Encoded (.or x y) 0xF00F#16 0x8001#16 ∧ ∃ t, exec (.or x y) s = .next t ∧
      (∀ k, (getV t x).getLsbD k = ((getV s x).getLsbD k || (getV s y).getLsbD k)) ∧ PcPlus2 s t ∧
      SameRegsBut s t (· = x) ∧ OnlyVPc s t) ∧
    (Encoded (.and x y) 0xF00F#16 0x8002#16 ∧ ∃ t, exec (.and x y) s = .next t ∧
      (∀ k, (getV t x).getLsbD k = ((getV s x).getLsbD k && (getV s y).getLsbD k)) ∧ PcPlus2 s t ∧
      SameRegsBut s t (· = x) ∧ OnlyVPc s t) ∧
    (Encoded (.xor x y) 0xF00F#16 0x8003#16 ∧ ∃ t, exec (.xor x y) s = .next t ∧
      (∀ k, (getV t x).getLsbD k = ((getV s x).getLsbD k ^^ (getV s y).getLsbD k)) ∧ PcPlus2 s t ∧
      SameRegsBut s t (· = x) ∧ OnlyVPc s t)

/-- R157, R164 (that the result remains in VF for X = 0xF is the spec's decision D3, log entry 7). -/
def Obligations.AddWithCarryOut : Prop :=
  ∀ (s : State) (x y : Nibble),
    ∃ t, exec (.addVxVy x y) s = .next t ∧
      (getV t x).toNat = ((getV s x).toNat + (getV s y).toNat) % 256 ∧
      (x ≠ 0xF#4 → (getV t 0xF#4).toNat = if 256 ≤ (getV s x).toNat + (getV s y).toNat then 1 else 0) ∧
      PcPlus2 s t ∧ SameRegsBut s t (fun r => r = x ∨ r = 0xF#4) ∧ OnlyVPc s t

/-- R158, R160, R164 (the result in VF for X = 0xF: spec decision D3, log entry 7): both subtractions, with VF 1 exactly
when there is no borrow; equal operands give 0 and VF = 1. -/
def Obligations.SubtractWithNotBorrow : Prop :=
  ∀ (s : State) (x y : Nibble),
    (∃ t, exec (.sub x y) s = .next t ∧
      ((getV t x).toNat : Int) = ((getV s x).toNat - (getV s y).toNat : Int) % 256 ∧
      (x ≠ 0xF#4 → (getV t 0xF#4).toNat = if (getV s y).toNat ≤ (getV s x).toNat then 1 else 0) ∧
      PcPlus2 s t ∧ SameRegsBut s t (fun r => r = x ∨ r = 0xF#4) ∧ OnlyVPc s t) ∧
    (∃ t, exec (.subn x y) s = .next t ∧
      ((getV t x).toNat : Int) = ((getV s y).toNat - (getV s x).toNat : Int) % 256 ∧
      (x ≠ 0xF#4 → (getV t 0xF#4).toNat = if (getV s x).toNat ≤ (getV s y).toNat then 1 else 0) ∧
      PcPlus2 s t ∧ SameRegsBut s t (fun r => r = x ∨ r = 0xF#4) ∧ OnlyVPc s t)

/-- R159, R161, R164 (the result in VF for X = 0xF: spec decision D3, log entry 7): both shifts of V[X] by one; V[Y] has
no influence. -/
def Obligations.ShiftByOne : Prop :=
  ∀ (s : State) (x y : Nibble),
    (∃ t, exec (.shr x y) s = .next t ∧
      (getV t x).toNat = (getV s x).toNat / 2 ∧
      (x ≠ 0xF#4 → (getV t 0xF#4).toNat = (getV s x).toNat % 2) ∧
      PcPlus2 s t ∧ SameRegsBut s t (fun r => r = x ∨ r = 0xF#4) ∧ OnlyVPc s t) ∧
    (∃ t, exec (.shl x y) s = .next t ∧
      (getV t x).toNat = 2 * (getV s x).toNat % 256 ∧
      (x ≠ 0xF#4 → (getV t 0xF#4).toNat = (getV s x).toNat / 128) ∧
      PcPlus2 s t ∧ SameRegsBut s t (fun r => r = x ∨ r = 0xF#4) ∧ OnlyVPc s t)

/-- R162 (rnd is a free input of the step: spec decision D2, log entry 2): the statement holds for every value of it. -/
def Obligations.RandomUnderMask : Prop :=
  ∀ (s : State) (x : Nibble) (nn : Byte),
    ∃ t, exec (.rnd x nn) s = .next t ∧ (∀ k, (getV t x).getLsbD k = (s.rnd.getLsbD k && nn.getLsbD k)) ∧
      PcPlus2 s t ∧ SameRegsBut s t (· = x) ∧ OnlyVPc s t

/-! ## Index register and memory transfers -/

/-- R180. -/
def Obligations.LoadIndex : Prop :=
  ∀ (s : State) (nnn : Addr12),
    Encoded (.ldINnn nnn) 0xF000#16 0xA000#16 ∧
    ∃ t, exec (.ldINnn nnn) s = .next t ∧ t.I.toNat = nnn.toNat ∧ t.I.toNat ≤ 0xFFF ∧ PcPlus2 s t ∧ OnlyIPc s t

/-- R181. -/
def Obligations.AddToIndex : Prop :=
  ∀ (s : State) (x : Nibble),
    Encoded (.addIVx x) 0xF0FF#16 0xF01E#16 ∧
    ∃ t, exec (.addIVx x) s = .next t ∧ t.I.toNat = (s.I.toNat + (getV s x).toNat) % 65536 ∧ PcPlus2 s t ∧ OnlyIPc s t

/-- R182 (the formula, not the masked digit: spec conflict C3, log entry 10). -/
def Obligations.PointAtGlyph : Prop :=
  ∀ (s : State) (x : Nibble),
    Encoded (.ldFVx x) 0xF0FF#16 0xF029#16 ∧
    ∃ t, exec (.ldFVx x) s = .next t ∧ t.I.toNat = 5 * (getV s x).toNat ∧ PcPlus2 s t ∧ OnlyIPc s t

/-- R183 (where no check fails; the ROM check is the spec's decision D8): the three decimal digits, and the frame. -/
def Obligations.StoreDecimalDigits : Prop :=
  ∀ (s : State) (x : Nibble), 0x050 ≤ s.I.toNat → s.I.toNat + 3 ≤ 4096 →
    ∃ t, exec (.ldBVx x) s = .next t ∧
      (byteAt t s.I.toNat).toNat = (getV s x).toNat / 100 ∧
      (byteAt t (s.I.toNat + 1)).toNat = (getV s x).toNat / 10 % 10 ∧
      (byteAt t (s.I.toNat + 2)).toNat = (getV s x).toNat % 10 ∧
      SameBytesOutside s t s.I.toNat 3 ∧ PcPlus2 s t ∧ t = { s with mem := t.mem, pc := t.pc }

/-- R184 (where no check fails; the ROM check is the spec's decision D8): V[0..X] to the bytes from I upward, and the
frame. -/
def Obligations.StoreRegisters : Prop :=
  ∀ (s : State) (x : Nibble), 0x050 ≤ s.I.toNat → s.I.toNat + x.toNat + 1 ≤ 4096 →
    ∃ t, exec (.ldMiVx x) s = .next t ∧
      (∀ r : Nibble, r.toNat ≤ x.toNat → byteAt t (s.I.toNat + r.toNat) = getV s r) ∧
      SameBytesOutside s t s.I.toNat (x.toNat + 1) ∧ PcPlus2 s t ∧ t = { s with mem := t.mem, pc := t.pc }

/-- R185 (where the check does not fail): the bytes from I upward to V[0..X], the font region included, and the frame. -/
def Obligations.LoadRegisters : Prop :=
  ∀ (s : State) (x : Nibble), s.I.toNat + x.toNat + 1 ≤ 4096 →
    ∃ t, exec (.ldVxMi x) s = .next t ∧
      (∀ r : Nibble, r.toNat ≤ x.toNat → getV t r = byteAt s (s.I.toNat + r.toNat)) ∧
      SameRegsBut s t (fun r => r.toNat ≤ x.toNat) ∧ PcPlus2 s t ∧ OnlyVPc s t

/-- R53, R183, R184, R229 (unbounded addresses: spec decision D4; the ROM check: D8; nothing written: D5): where a store
traps, and on which address. -/
def Obligations.StoresTrapOnLowestBadAddress : Prop :=
  ∀ (s : State) (x : Nibble),
    (4096 < s.I.toNat + 3 → Raises (.ldBVx x) s .addressOutOfRange (some (max s.I.toNat 4096))) ∧
    (s.I.toNat ≤ 0x04F → Raises (.ldBVx x) s .romWrite (some s.I.toNat)) ∧
    (4096 < s.I.toNat + x.toNat + 1 → Raises (.ldMiVx x) s .addressOutOfRange (some (max s.I.toNat 4096))) ∧
    (s.I.toNat ≤ 0x04F → Raises (.ldMiVx x) s .romWrite (some s.I.toNat))

/-- R53, R112, R185 (unbounded addresses: spec decision D4; clipped rows are checked and N = 0 reads nothing: D10): where
a load or a draw traps, and on which address. -/
def Obligations.ReadsTrapOnLowestBadAddress : Prop :=
  ∀ (s : State) (x y n : Nibble),
    (4096 < s.I.toNat + x.toNat + 1 → Raises (.ldVxMi x) s .addressOutOfRange (some (max s.I.toNat 4096))) ∧
    (0 < n.toNat → 4096 < s.I.toNat + n.toNat →
      Raises (.drw x y n) s .addressOutOfRange (some (max s.I.toNat 4096)))

/-- The round trip of spec/95_test_vectors.md W9 (R184, R185): registers stored at I and loaded back from the same
address, whatever the registers hold in between, are restored. -/
def Obligations.StoreThenLoadRestoresRegisters : Prop :=
  ∀ (s t u : State) (x : Nibble), 0x050 ≤ s.I.toNat → s.I.toNat + x.toNat + 1 ≤ 4096 →
    exec (.ldMiVx x) s = .next t → SameBytes t u → u.I = t.I →
    ∃ w, exec (.ldVxMi x) u = .next w ∧ (∀ r : Nibble, r.toNat ≤ x.toNat → getV w r = getV s r) ∧
      (∀ r : Nibble, x.toNat < r.toNat → getV w r = getV u r)

/-- R63 (which the spec derives) and R267: the fetch after FX33 or FX55 gives the bytes as the store leaves them, whether it
stored over both bytes of the next word, over one of them or over none (that lower addresses fault: spec decision D8, log
entry 9). -/
def Obligations.StoredWordIsFetchedNext : Prop :=
  ∀ (s : State) (x : Nibble), 0x050 ≤ s.I.toNat → s.pc.toNat + 3 < 4096 →
    (s.I.toNat + 3 ≤ 4096 →
      ∃ t w, exec (.ldBVx x) s = .next t ∧ t.pc.toNat = s.pc.toNat + 2 ∧ fetch t = .ok w ∧
        w.toNat = 256 * afterDigits s x (s.pc.toNat + 2) + afterDigits s x (s.pc.toNat + 3)) ∧
    (s.I.toNat + x.toNat + 1 ≤ 4096 →
      ∃ t w, exec (.ldMiVx x) s = .next t ∧ t.pc.toNat = s.pc.toNat + 2 ∧ fetch t = .ok w ∧
        w.toNat = 256 * afterRegisters s x (s.pc.toNat + 2) + afterRegisters s x (s.pc.toNat + 3))

/-! ## Display -/

/-- R111. -/
def Obligations.ClearScreen : Prop :=
  ∀ s : State,
    encode .cls = 0x00E0#16 ∧
    ∃ t, exec .cls s = .next t ∧ (∀ x y, x < 64 → y < 32 → pixel t.fb x y = false) ∧ t.redraw = true ∧ PcPlus2 s t ∧
      SameBytes s t ∧ t = { s with fb := t.fb, redraw := t.redraw, pc := t.pc }

/-- R112 to R116 (bit order, unreduced start and N = 0: spec decisions D9, D10, log entry 8), where the N bytes exist: each
pixel of the screen is XORed with its sprite bit, VF is 1 exactly when a lit pixel met a set bit, redraw is set, and the
frame. -/
def Obligations.DrawXorsSpriteAndReportsCollision : Prop :=
  ∀ (s : State) (x y n : Nibble), (n.toNat = 0 ∨ s.I.toNat + n.toNat ≤ 4096) →
    ∃ t, exec (.drw x y n) s = .next t ∧
      (∀ px py, px < 64 → py < 32 → pixel t.fb px py = (pixel s.fb px py ^^ spriteBit s x y n px py)) ∧
      (Collides s x y n → getV t 0xF#4 = 1) ∧ (¬ Collides s x y n → getV t 0xF#4 = 0) ∧
      t.redraw = true ∧ PcPlus2 s t ∧ SameRegsBut s t (· = 0xF#4) ∧ SameBytes s t ∧
      t = { s with V := t.V, fb := t.fb, redraw := t.redraw, pc := t.pc }

/-- spec/95_test_vectors.md W7 (R112, R115; bit order: spec decision D9; start not
reduced and N = 0: D10; log entry 8): drawing the same sprite twice at the same place (coordinates not in VF) restores the
screen, and the second draw collides exactly when the sprite sets a pixel of the screen that was unlit. -/
def Obligations.DrawTwiceRestoresScreen : Prop :=
  ∀ (s t : State) (x y n : Nibble), x ≠ 0xF#4 → y ≠ 0xF#4 → (n.toNat = 0 ∨ s.I.toNat + n.toNat ≤ 4096) →
    exec (.drw x y n) s = .next t →
    ∃ u, exec (.drw x y n) t = .next u ∧ u.fb = s.fb ∧
      (getV u 0xF#4 = 1 ↔
        ∃ px py, px < 64 ∧ py < 32 ∧ spriteBit s x y n px py = true ∧ pixel s.fb px py = false)

/-! ## Control transfer -/

/-- R132: the target is NNN, odd or even, and only NNN = 0xFFF gives a fetch fault next. -/
def Obligations.JumpAbsolute : Prop :=
  ∀ (s : State) (nnn : Addr12),
    Encoded (.jp nnn) 0xF000#16 0x1000#16 ∧
    ∃ t, exec (.jp nnn) s = .next t ∧ t.pc.toNat = nnn.toNat ∧ OnlyPc s t ∧
      (nnn.toNat = 0xFFF → fetch t = .error 0x1000) ∧ (nnn.toNat ≠ 0xFFF → ∃ w, fetch t = .ok w)

/-- R138: the target is NNN + V[0], never truncated to 12 bits, and a target of 0xFFF or more gives a fetch fault next. -/
def Obligations.JumpWithOffset : Prop :=
  ∀ (s : State) (nnn : Addr12),
    Encoded (.jpV0 nnn) 0xF000#16 0xB000#16 ∧
    ∃ t, exec (.jpV0 nnn) s = .next t ∧ t.pc.toNat = nnn.toNat + (getV s 0x0#4).toNat ∧ OnlyPc s t ∧
      (0xFFF ≤ t.pc.toNat → NextFetchFaults t)

/-- R133, R222 (a faulting CALL changes nothing but the latch: spec decision D5): CALL pushes its own address, or
overflows at SP = 16. -/
def Obligations.CallPushesOwnAddress : Prop :=
  ∀ (s : State) (nnn : Addr12),
    (s.SP.val < 16 → ∃ t, exec (.call nnn) s = .next t ∧ t.SP.val = s.SP.val + 1 ∧
      (∀ k (h : k < 16), t.stack[k]'h = if k = s.SP.val then s.pc else s.stack[k]'h) ∧
      t.pc.toNat = nnn.toNat ∧ SameBytes s t ∧ t = { s with stack := t.stack, SP := t.SP, pc := t.pc }) ∧
    (s.SP.val = 16 → Raises (.call nnn) s .stackOverflow none)

/-- R131, R223 (the popped slot keeps its value: spec decision D23, log entry 14): RET pops and adds 2, or underflows at
SP = 0. -/
def Obligations.ReturnPopsAndAddsTwo : Prop :=
  ∀ s : State,
    (∀ k (h : k < 16), s.SP.val = k + 1 → ∃ t, exec .ret s = .next t ∧ t.SP.val = k ∧
      t.pc.toNat = ((s.stack[k]'h).toNat + 2) % 65536 ∧ SameBytes s t ∧ t = { s with SP := t.SP, pc := t.pc }) ∧
    (s.SP.val = 0 → Raises .ret s .stackUnderflow none)

/-- R139 (which the spec derives): whatever runs in between, as long as the stack is as the CALL left it, the RET resumes at
the instruction after the CALL with the stack pointer as before. -/
def Obligations.ReturnResumesAfterCall : Prop :=
  ∀ (s t u : State) (nnn : Addr12), s.SP.val < 16 → exec (.call nnn) s = .next t →
    u.stack = t.stack → u.SP = t.SP →
    ∃ w, exec .ret u = .next w ∧ w.pc.toNat = (s.pc.toNat + 2) % 65536 ∧ w.SP = s.SP ∧
      ∀ k (h : k < 16), k < s.SP.val → w.stack[k]'h = s.stack[k]'h

/-- R134, R135: skips on an immediate; the skipped word is not looked at, and a skip to 0xFFF or above gives a fetch
fault next. -/
def Obligations.SkipOnImmediate : Prop :=
  ∀ (s : State) (x : Nibble) (nn : Byte),
    Encoded (.seVxNn x nn) 0xF000#16 0x3000#16 ∧ Encoded (.sneVxNn x nn) 0xF000#16 0x4000#16 ∧
    (∃ t, exec (.seVxNn x nn) s = .next t ∧
      t.pc.toNat = (s.pc.toNat + if getV s x = nn then 4 else 2) % 65536 ∧ OnlyPc s t ∧
      (getV s x = nn → s.pc.toNat ≤ 0xFFE → 0xFFF ≤ s.pc.toNat + 4 → NextFetchFaults t)) ∧
    (∃ t, exec (.sneVxNn x nn) s = .next t ∧
      t.pc.toNat = (s.pc.toNat + if getV s x = nn then 2 else 4) % 65536 ∧ OnlyPc s t ∧
      (getV s x ≠ nn → s.pc.toNat ≤ 0xFFE → 0xFFF ≤ s.pc.toNat + 4 → NextFetchFaults t))

/-- R136, R137: skips on two registers; the same words with a low nibble other than 0 are no instructions. -/
def Obligations.SkipOnRegisters : Prop :=
  ∀ (s : State) (x y : Nibble),
    Encoded (.seVxVy x y) 0xF00F#16 0x5000#16 ∧ Encoded (.sneVxVy x y) 0xF00F#16 0x9000#16 ∧
    (∀ n : Nibble, n ≠ 0 →
      decodeWord (wordXYN 0x5#4 x y n) = .error (.illegal (wordXYN 0x5#4 x y n)) ∧
      decodeWord (wordXYN 0x9#4 x y n) = .error (.illegal (wordXYN 0x9#4 x y n))) ∧
    (∃ t, exec (.seVxVy x y) s = .next t ∧
      t.pc.toNat = (s.pc.toNat + if getV s x = getV s y then 4 else 2) % 65536 ∧ OnlyPc s t) ∧
    (∃ t, exec (.sneVxVy x y) s = .next t ∧
      t.pc.toNat = (s.pc.toNat + if getV s x = getV s y then 2 else 4) % 65536 ∧ OnlyPc s t)

/-! ## Keypad and timers -/

/-- R200, R201, R206 (a key index above 15 raises KeyIndexOutOfRange: spec decision D7, log entry 9): skips on a key. -/
def Obligations.SkipOnKey : Prop :=
  ∀ (s : State) (x : Nibble),
    (∀ k : Nibble, (getV s x).toNat = k.toNat →
      (∃ t, exec (.skp x) s = .next t ∧
        t.pc.toNat = (s.pc.toNat + if keyDown s k = true then 4 else 2) % 65536 ∧ OnlyPc s t) ∧
      (∃ t, exec (.sknp x) s = .next t ∧
        t.pc.toNat = (s.pc.toNat + if keyDown s k = true then 2 else 4) % 65536 ∧ OnlyPc s t)) ∧
    (15 < (getV s x).toNat →
      Raises (.skp x) s .keyIndexOutOfRange (some (getV s x).toNat) ∧
      Raises (.sknp x) s .keyIndexOutOfRange (some (getV s x).toNat))

/-- R203 (polling: spec decision D17, log entry 12): with a key pressed the lowest one goes into V[X] and the pc moves on;
with none pressed nothing changes at all. -/
def Obligations.WaitForLowestKey : Prop :=
  ∀ (s : State) (x : Nibble),
    (∀ k : Nibble, keyDown s k = true → (∀ j : Nibble, j.toNat < k.toNat → keyDown s j = false) →
      ∃ t, exec (.ldVxK x) s = .next t ∧ (getV t x).toNat = k.toNat ∧ PcPlus2 s t ∧ SameRegsBut s t (· = x) ∧
        OnlyVPc s t) ∧
    ((∀ k : Nibble, keyDown s k = false) → exec (.ldVxK x) s = .next s)

/-- R202, R269: V[X] is DT as it is before the step's ticks. -/
def Obligations.ReadDelayTimer : Prop :=
  ∀ (s : State) (x : Nibble),
    (∃ t, exec (.ldVxDt x) s = .next t ∧ getV t x = s.DT ∧ PcPlus2 s t ∧ SameRegsBut s t (· = x) ∧ OnlyVPc s t) ∧
    (s.fault = none → fetch s = .ok (encode (.ldVxDt x)) →
      ∃ t, cycle s = .next t ∧ getV t x = s.DT ∧ t.DT.toNat = s.DT.toNat - s.ticks)

/-- R204: DT is V[X], and after the step's own ticks max(0, V[X] - ticks). -/
def Obligations.SetDelayTimer : Prop :=
  ∀ (s : State) (x : Nibble),
    Encoded (.ldDtVx x) 0xF0FF#16 0xF015#16 ∧
    (∃ t, exec (.ldDtVx x) s = .next t ∧ t.DT = getV s x ∧ PcPlus2 s t ∧ SameBytes s t ∧
      t = { s with DT := t.DT, pc := t.pc }) ∧
    (s.fault = none → fetch s = .ok (encode (.ldDtVx x)) →
      ∃ t, cycle s = .next t ∧ t.DT.toNat = (getV s x).toNat - s.ticks)

/-- R205: ST is V[X]; sound_out of that step comes from its ticks on the new value, never from the write. -/
def Obligations.SetSoundTimer : Prop :=
  ∀ (s : State) (x : Nibble),
    Encoded (.ldStVx x) 0xF0FF#16 0xF018#16 ∧
    (∃ t, exec (.ldStVx x) s = .next t ∧ t.ST = getV s x ∧ PcPlus2 s t ∧ SameBytes s t ∧
      t = { s with ST := t.ST, pc := t.pc }) ∧
    (s.fault = none → fetch s = .ok (encode (.ldStVx x)) →
      ∃ t, cycle s = .next t ∧ t.ST.toNat = (getV s x).toNat - s.ticks ∧
        (t.soundOut = true ↔ 1 ≤ (getV s x).toNat ∧ (getV s x).toNat ≤ s.ticks))
end

