-- ==== Sys2Proof/Laws/Memory.lean ====
section
/-! SUPPORT. The laws of memory: a read after a write to the same place gives the value written, a write leaves every other
place alone, and every memory operation keeps the canonical form. -/

namespace Sys2Proof.Machine

variable (font : Font)

theorem lookup_erase_same (m : Memory) (a : Nat) : (Memory.erase m a).lookup a = none := by
  induction m with
  | nil => rfl
  | cons c rest ih =>
    by_cases h : c.1 = a
    · simpa [Memory.erase, h] using ih
    · simpa [Memory.erase, Memory.lookup, h] using ih

theorem lookup_erase_ne (m : Memory) (a b : Nat) (hb : b ≠ a) : (Memory.erase m a).lookup b = m.lookup b := by
  induction m with
  | nil => rfl
  | cons c rest ih =>
    simp only [Memory.erase] at ih
    by_cases h : c.1 = a
    · have : a ≠ b := fun e => hb e.symm
      simp [Memory.erase, Memory.lookup, h, this, ih]
    · simp [Memory.erase, Memory.lookup, h, ih]

theorem lookup_insert_same (m : Memory) (a : Nat) (v : Byte) (h : m.lookup a = none) :
    (Memory.insert m a v).lookup a = some v := by
  induction m with
  | nil => simp [Memory.insert, Memory.lookup]
  | cons c rest ih =>
    have hc : c.1 ≠ a := fun e => by simp [Memory.lookup, e] at h
    have hr : Memory.lookup rest a = none := by simpa [Memory.lookup, hc] using h
    by_cases hlt : a < c.1
    · simp [Memory.insert, Memory.lookup, hlt]
    · simp [Memory.insert, Memory.lookup, hlt, hc, ih hr]

theorem lookup_insert_ne (m : Memory) (a b : Nat) (v : Byte) (hb : b ≠ a) :
    (Memory.insert m a v).lookup b = m.lookup b := by
  have hab : a ≠ b := fun e => hb e.symm
  induction m with
  | nil => simp [Memory.insert, Memory.lookup, hab]
  | cons c rest ih =>
    by_cases hlt : a < c.1
    · simp [Memory.insert, Memory.lookup, hlt, hab]
    · simp [Memory.insert, Memory.lookup, hlt, ih]

/-- A read after a write to the same address gives the value written. -/
@[simp] theorem read_write_same (m : Memory) (a : Nat) (v : Byte) : (Memory.write font m a v).read font a = v := by
  unfold Memory.write
  split
  · next h => simp [Memory.read, lookup_erase_same, h]
  · simp [Memory.read, lookup_insert_same _ _ _ (lookup_erase_same m a)]

/-- A write leaves every other address alone. -/
theorem read_write_ne (m : Memory) (a b : Nat) (v : Byte) (h : b ≠ a) : (Memory.write font m a v).read font b = m.read font b := by
  unfold Memory.write
  split
  · simp [Memory.read, lookup_erase_ne _ _ _ h]
  · simp [Memory.read, lookup_insert_ne _ _ _ _ h, lookup_erase_ne _ _ _ h]

/-- A run of writes leaves every address outside it alone. -/
theorem read_writeBytes_outside (bs : List Byte) (m : Memory) (a b : Nat) (h : b < a ∨ a + bs.length ≤ b) :
    (Memory.writeBytes font m a bs).read font b = m.read font b := by
  induction bs generalizing m a with
  | nil => rfl
  | cons v rest ih =>
    simp only [List.length_cons] at h
    rw [Memory.writeBytes, ih _ _ (by omega), read_write_ne _ _ _ _ _ (by omega)]

/-- A run of writes puts its k-th byte at the k-th address. -/
theorem read_writeBytes_inside (bs : List Byte) (m : Memory) (a k : Nat) (h : k < bs.length) :
    (Memory.writeBytes font m a bs).read font (a + k) = bs[k] := by
  induction bs generalizing m a k with
  | nil => simp at h
  | cons v rest ih =>
    cases k with
    | zero => rw [Memory.writeBytes, read_writeBytes_outside _ _ _ _ _ (by omega)]; simp
    | succ k =>
      have := ih (m.write font a v) (a + 1) k (by simpa using h)
      rw [Memory.writeBytes, show a + (k + 1) = a + 1 + k by omega, this]
      simp

/-! The canonical form. -/

/-- The addresses of a memory whose addresses rise lie above `a`. -/
def Memory.above (m : Memory) (a : Nat) : Prop := ∀ c ∈ m, a < c.1

theorem rising_cons (c : Host.Cell) (rest : Memory) :
    Memory.rising (c :: rest) = true ↔ Memory.above rest c.1 ∧ Memory.rising rest = true := by
  induction rest generalizing c with
  | nil => simp [Memory.rising, Memory.above]
  | cons d rest ih =>
    simp only [Memory.rising, Bool.and_eq_true, decide_eq_true_eq]
    constructor
    · rintro ⟨h, hr⟩
      refine ⟨?_, hr⟩
      intro e he
      rcases List.mem_cons.1 he with rfl | he
      · exact h
      · exact Nat.lt_trans h (((ih d).1 hr).1 e he)
    · rintro ⟨h, hr⟩
      exact ⟨h d (List.mem_cons_self ..), hr⟩

theorem rising_erase (m : Memory) (a : Nat) (h : m.rising = true) : (Memory.erase m a).rising = true := by
  induction m with
  | nil => rfl
  | cons c rest ih =>
    obtain ⟨hab, hr⟩ := (rising_cons c rest).1 h
    by_cases hc : c.1 = a
    · simpa [Memory.erase, hc] using ih hr
    · have he : Memory.erase (c :: rest) a = c :: Memory.erase rest a := by simp [Memory.erase, hc]
      rw [he, rising_cons]
      exact ⟨fun d hd => hab d (List.mem_filter.1 hd).1, ih hr⟩

theorem mem_insert (m : Memory) (a : Nat) (v : Byte) (c : Host.Cell) :
    c ∈ Memory.insert m a v ↔ c = (a, v) ∨ c ∈ m := by
  induction m with
  | nil => simp [Memory.insert]
  | cons d rest ih =>
    by_cases h : a < d.1
    · simp [Memory.insert, h]
    · simp only [Memory.insert, h, if_false, List.mem_cons, ih]
      tauto

theorem rising_insert (m : Memory) (a : Nat) (v : Byte) (h : m.rising = true) (hn : ∀ c ∈ m, c.1 ≠ a) :
    (Memory.insert m a v).rising = true := by
  induction m with
  | nil => rfl
  | cons c rest ih =>
    obtain ⟨hab, hr⟩ := (rising_cons c rest).1 h
    by_cases hlt : a < c.1
    · simp only [Memory.insert, hlt, if_true]
      rw [rising_cons]
      refine ⟨?_, h⟩
      intro d hd
      rcases List.mem_cons.1 hd with rfl | hd
      · exact hlt
      · exact Nat.lt_trans hlt (hab d hd)
    · simp only [Memory.insert, hlt, if_false]
      rw [rising_cons]
      refine ⟨?_, ih hr fun d hd => hn d (List.mem_cons_of_mem _ hd)⟩
      intro d hd
      have hne := hn c (List.mem_cons_self ..)
      rcases (mem_insert rest a v d).1 hd with rfl | hd
      · show c.1 < a
        omega
      · exact hab d hd

/-- A write below 4096 keeps the canonical form. -/
theorem write_wf (m : Memory) (a : Nat) (v : Byte) (ha : a < 4096) (h : m.wf font = true) :
    (Memory.write font m a v).wf font = true := by
  simp only [Memory.wf, Bool.and_eq_true, List.all_eq_true] at h ⊢
  have hok : ∀ c ∈ Memory.erase m a, cellOk font c = true := fun c hc => h.1 c (List.mem_filter.1 hc).1
  have hne : ∀ c ∈ Memory.erase m a, c.1 ≠ a := fun c hc => by simpa using (List.mem_filter.1 hc).2
  have hr := rising_erase m a h.2
  unfold Memory.write
  split
  · exact ⟨hok, hr⟩
  · next hv =>
    refine ⟨?_, rising_insert _ _ _ hr hne⟩
    intro c hc
    rcases (mem_insert _ _ _ _).1 hc with rfl | hc
    · simp [cellOk, ha, hv]
    · exact hok c hc

/-- A run of writes below 4096 keeps the canonical form. -/
theorem writeBytes_wf (bs : List Byte) (m : Memory) (a : Nat) (ha : a + bs.length ≤ 4096) (h : m.wf font = true) :
    (Memory.writeBytes font m a bs).wf font = true := by
  induction bs generalizing m a with
  | nil => exact h
  | cons v rest ih =>
    simp only [List.length_cons] at ha
    exact ih _ _ (by omega) (write_wf font m a v (by omega) h)

/-- The memory after construction is in canonical form. -/
theorem construct_mem_wf : (State.construct font).mem.wf font = true := rfl

theorem unlisted_font (a : Nat) (h : a < 80) : unlisted font a = font[a]'h := by simp [unlisted, h]

theorem unlisted_ram (a : Nat) (h : 80 ≤ a) : unlisted font a = 0 := by simp [unlisted, Nat.not_lt.2 h]

/-- What a freshly constructed machine's memory reads as. -/
theorem byteAt_construct (a : Nat) : byteAt (State.construct font) a = unlisted font a := rfl

/-! The machine's memory. -/

/-- All that storing bytes does: the k-th address holds the k-th byte, every other address reads as before, and no other
field changes. -/
theorem storeBytes_spec (s : State) (a : Nat) (bs : List Byte) :
    (∀ k (h : k < bs.length), byteAt (storeBytes s a bs) (a + k) = bs[k]) ∧
      (∀ b, (b < a ∨ a + bs.length ≤ b) → byteAt (storeBytes s a bs) b = byteAt s b) ∧
      storeBytes s a bs = { s with mem := (storeBytes s a bs).mem } :=
  ⟨fun _ h => read_writeBytes_inside _ _ _ _ _ h, fun _ h => read_writeBytes_outside _ _ _ _ _ h, rfl⟩

/-- Storing bytes below 4096 keeps the canonical form. -/
theorem storeBytes_wf (s : State) (a : Nat) (bs : List Byte) (ha : a + bs.length ≤ 4096) (h : s.mem.wf s.font = true) :
    (storeBytes s a bs).mem.wf (storeBytes s a bs).font = true :=
  writeBytes_wf _ _ _ _ ha h

end Sys2Proof.Machine
end

