-- ==== Sys2Proof/Laws/State.lean ====
section
/-! SUPPORT. One lemma per field per update of the state, each true by `rfl`, so that no proof unfolds a record update; and the
register file's read after write. -/

namespace Sys2Proof.Machine

/-! `setV` -/

@[simp] theorem setV_V (s : State) (x : Nibble) (v : Byte) : (setV s x v).V = s.V.set x.toNat v x.isLt := rfl
@[simp] theorem setV_I (s : State) (x : Nibble) (v : Byte) : (setV s x v).I = s.I := rfl
@[simp] theorem setV_pc (s : State) (x : Nibble) (v : Byte) : (setV s x v).pc = s.pc := rfl
@[simp] theorem setV_stack (s : State) (x : Nibble) (v : Byte) : (setV s x v).stack = s.stack := rfl
@[simp] theorem setV_SP (s : State) (x : Nibble) (v : Byte) : (setV s x v).SP = s.SP := rfl
@[simp] theorem setV_DT (s : State) (x : Nibble) (v : Byte) : (setV s x v).DT = s.DT := rfl
@[simp] theorem setV_ST (s : State) (x : Nibble) (v : Byte) : (setV s x v).ST = s.ST := rfl
@[simp] theorem setV_mem (s : State) (x : Nibble) (v : Byte) : (setV s x v).mem = s.mem := rfl
@[simp] theorem setV_fb (s : State) (x : Nibble) (v : Byte) : (setV s x v).fb = s.fb := rfl
@[simp] theorem setV_key (s : State) (x : Nibble) (v : Byte) : (setV s x v).key = s.key := rfl
@[simp] theorem setV_redraw (s : State) (x : Nibble) (v : Byte) : (setV s x v).redraw = s.redraw := rfl
@[simp] theorem setV_fault (s : State) (x : Nibble) (v : Byte) : (setV s x v).fault = s.fault := rfl
@[simp] theorem setV_ticks (s : State) (x : Nibble) (v : Byte) : (setV s x v).ticks = s.ticks := rfl
@[simp] theorem setV_rnd (s : State) (x : Nibble) (v : Byte) : (setV s x v).rnd = s.rnd := rfl
@[simp] theorem setV_soundOut (s : State) (x : Nibble) (v : Byte) : (setV s x v).soundOut = s.soundOut := rfl
@[simp] theorem setV_turns (s : State) (x : Nibble) (v : Byte) : (setV s x v).turns = s.turns := rfl
@[simp] theorem setV_turnNo (s : State) (x : Nibble) (v : Byte) : (setV s x v).turnNo = s.turnNo := rfl
@[simp] theorem setV_font (s : State) (x : Nibble) (v : Byte) : (setV s x v).font = s.font := rfl

/-! `jumpTo` -/

@[simp] theorem jumpTo_V (s : State) (a : Word) : (jumpTo s a).V = s.V := rfl
@[simp] theorem jumpTo_I (s : State) (a : Word) : (jumpTo s a).I = s.I := rfl
@[simp] theorem jumpTo_pc (s : State) (a : Word) : (jumpTo s a).pc = a := rfl
@[simp] theorem jumpTo_stack (s : State) (a : Word) : (jumpTo s a).stack = s.stack := rfl
@[simp] theorem jumpTo_SP (s : State) (a : Word) : (jumpTo s a).SP = s.SP := rfl
@[simp] theorem jumpTo_DT (s : State) (a : Word) : (jumpTo s a).DT = s.DT := rfl
@[simp] theorem jumpTo_ST (s : State) (a : Word) : (jumpTo s a).ST = s.ST := rfl
@[simp] theorem jumpTo_mem (s : State) (a : Word) : (jumpTo s a).mem = s.mem := rfl
@[simp] theorem jumpTo_fb (s : State) (a : Word) : (jumpTo s a).fb = s.fb := rfl
@[simp] theorem jumpTo_key (s : State) (a : Word) : (jumpTo s a).key = s.key := rfl
@[simp] theorem jumpTo_redraw (s : State) (a : Word) : (jumpTo s a).redraw = s.redraw := rfl
@[simp] theorem jumpTo_fault (s : State) (a : Word) : (jumpTo s a).fault = s.fault := rfl
@[simp] theorem jumpTo_ticks (s : State) (a : Word) : (jumpTo s a).ticks = s.ticks := rfl
@[simp] theorem jumpTo_rnd (s : State) (a : Word) : (jumpTo s a).rnd = s.rnd := rfl
@[simp] theorem jumpTo_soundOut (s : State) (a : Word) : (jumpTo s a).soundOut = s.soundOut := rfl
@[simp] theorem jumpTo_turns (s : State) (a : Word) : (jumpTo s a).turns = s.turns := rfl
@[simp] theorem jumpTo_turnNo (s : State) (a : Word) : (jumpTo s a).turnNo = s.turnNo := rfl
@[simp] theorem jumpTo_font (s : State) (a : Word) : (jumpTo s a).font = s.font := rfl

/-! `advance` -/

@[simp] theorem advance_V (s : State) : (advance s).V = s.V := rfl
@[simp] theorem advance_I (s : State) : (advance s).I = s.I := rfl
@[simp] theorem advance_pc (s : State) : (advance s).pc = trunc16 (s.pc.toNat + 2) := rfl
@[simp] theorem advance_stack (s : State) : (advance s).stack = s.stack := rfl
@[simp] theorem advance_SP (s : State) : (advance s).SP = s.SP := rfl
@[simp] theorem advance_DT (s : State) : (advance s).DT = s.DT := rfl
@[simp] theorem advance_ST (s : State) : (advance s).ST = s.ST := rfl
@[simp] theorem advance_mem (s : State) : (advance s).mem = s.mem := rfl
@[simp] theorem advance_fb (s : State) : (advance s).fb = s.fb := rfl
@[simp] theorem advance_key (s : State) : (advance s).key = s.key := rfl
@[simp] theorem advance_redraw (s : State) : (advance s).redraw = s.redraw := rfl
@[simp] theorem advance_fault (s : State) : (advance s).fault = s.fault := rfl
@[simp] theorem advance_ticks (s : State) : (advance s).ticks = s.ticks := rfl
@[simp] theorem advance_rnd (s : State) : (advance s).rnd = s.rnd := rfl
@[simp] theorem advance_soundOut (s : State) : (advance s).soundOut = s.soundOut := rfl
@[simp] theorem advance_turns (s : State) : (advance s).turns = s.turns := rfl
@[simp] theorem advance_turnNo (s : State) : (advance s).turnNo = s.turnNo := rfl
@[simp] theorem advance_font (s : State) : (advance s).font = s.font := rfl

/-! `storeBytes` -/

@[simp] theorem storeBytes_V (s : State) (a : Nat) (bs : List Byte) : (storeBytes s a bs).V = s.V := rfl
@[simp] theorem storeBytes_I (s : State) (a : Nat) (bs : List Byte) : (storeBytes s a bs).I = s.I := rfl
@[simp] theorem storeBytes_pc (s : State) (a : Nat) (bs : List Byte) : (storeBytes s a bs).pc = s.pc := rfl
@[simp] theorem storeBytes_stack (s : State) (a : Nat) (bs : List Byte) : (storeBytes s a bs).stack = s.stack := rfl
@[simp] theorem storeBytes_SP (s : State) (a : Nat) (bs : List Byte) : (storeBytes s a bs).SP = s.SP := rfl
@[simp] theorem storeBytes_DT (s : State) (a : Nat) (bs : List Byte) : (storeBytes s a bs).DT = s.DT := rfl
@[simp] theorem storeBytes_ST (s : State) (a : Nat) (bs : List Byte) : (storeBytes s a bs).ST = s.ST := rfl
@[simp] theorem storeBytes_mem (s : State) (a : Nat) (bs : List Byte) : (storeBytes s a bs).mem = s.mem.writeBytes s.font a bs := rfl
@[simp] theorem storeBytes_fb (s : State) (a : Nat) (bs : List Byte) : (storeBytes s a bs).fb = s.fb := rfl
@[simp] theorem storeBytes_key (s : State) (a : Nat) (bs : List Byte) : (storeBytes s a bs).key = s.key := rfl
@[simp] theorem storeBytes_redraw (s : State) (a : Nat) (bs : List Byte) : (storeBytes s a bs).redraw = s.redraw := rfl
@[simp] theorem storeBytes_fault (s : State) (a : Nat) (bs : List Byte) : (storeBytes s a bs).fault = s.fault := rfl
@[simp] theorem storeBytes_ticks (s : State) (a : Nat) (bs : List Byte) : (storeBytes s a bs).ticks = s.ticks := rfl
@[simp] theorem storeBytes_rnd (s : State) (a : Nat) (bs : List Byte) : (storeBytes s a bs).rnd = s.rnd := rfl
@[simp] theorem storeBytes_soundOut (s : State) (a : Nat) (bs : List Byte) : (storeBytes s a bs).soundOut = s.soundOut := rfl
@[simp] theorem storeBytes_turns (s : State) (a : Nat) (bs : List Byte) : (storeBytes s a bs).turns = s.turns := rfl
@[simp] theorem storeBytes_turnNo (s : State) (a : Nat) (bs : List Byte) : (storeBytes s a bs).turnNo = s.turnNo := rfl
@[simp] theorem storeBytes_font (s : State) (a : Nat) (bs : List Byte) : (storeBytes s a bs).font = s.font := rfl

/-! `quiet` -/

@[simp] theorem quiet_V (s : State) : (quiet s).V = s.V := rfl
@[simp] theorem quiet_I (s : State) : (quiet s).I = s.I := rfl
@[simp] theorem quiet_pc (s : State) : (quiet s).pc = s.pc := rfl
@[simp] theorem quiet_stack (s : State) : (quiet s).stack = s.stack := rfl
@[simp] theorem quiet_SP (s : State) : (quiet s).SP = s.SP := rfl
@[simp] theorem quiet_DT (s : State) : (quiet s).DT = s.DT := rfl
@[simp] theorem quiet_ST (s : State) : (quiet s).ST = s.ST := rfl
@[simp] theorem quiet_mem (s : State) : (quiet s).mem = s.mem := rfl
@[simp] theorem quiet_fb (s : State) : (quiet s).fb = s.fb := rfl
@[simp] theorem quiet_key (s : State) : (quiet s).key = s.key := rfl
@[simp] theorem quiet_redraw (s : State) : (quiet s).redraw = s.redraw := rfl
@[simp] theorem quiet_fault (s : State) : (quiet s).fault = s.fault := rfl
@[simp] theorem quiet_ticks (s : State) : (quiet s).ticks = s.ticks := rfl
@[simp] theorem quiet_rnd (s : State) : (quiet s).rnd = s.rnd := rfl
@[simp] theorem quiet_soundOut (s : State) : (quiet s).soundOut = false := rfl
@[simp] theorem quiet_turns (s : State) : (quiet s).turns = s.turns := rfl
@[simp] theorem quiet_turnNo (s : State) : (quiet s).turnNo = s.turnNo := rfl
@[simp] theorem quiet_font (s : State) : (quiet s).font = s.font := rfl

/-! `clearRedraw` -/

@[simp] theorem clearRedraw_V (s : State) : (clearRedraw s).V = s.V := rfl
@[simp] theorem clearRedraw_I (s : State) : (clearRedraw s).I = s.I := rfl
@[simp] theorem clearRedraw_pc (s : State) : (clearRedraw s).pc = s.pc := rfl
@[simp] theorem clearRedraw_stack (s : State) : (clearRedraw s).stack = s.stack := rfl
@[simp] theorem clearRedraw_SP (s : State) : (clearRedraw s).SP = s.SP := rfl
@[simp] theorem clearRedraw_DT (s : State) : (clearRedraw s).DT = s.DT := rfl
@[simp] theorem clearRedraw_ST (s : State) : (clearRedraw s).ST = s.ST := rfl
@[simp] theorem clearRedraw_mem (s : State) : (clearRedraw s).mem = s.mem := rfl
@[simp] theorem clearRedraw_fb (s : State) : (clearRedraw s).fb = s.fb := rfl
@[simp] theorem clearRedraw_key (s : State) : (clearRedraw s).key = s.key := rfl
@[simp] theorem clearRedraw_redraw (s : State) : (clearRedraw s).redraw = false := rfl
@[simp] theorem clearRedraw_fault (s : State) : (clearRedraw s).fault = s.fault := rfl
@[simp] theorem clearRedraw_ticks (s : State) : (clearRedraw s).ticks = s.ticks := rfl
@[simp] theorem clearRedraw_rnd (s : State) : (clearRedraw s).rnd = s.rnd := rfl
@[simp] theorem clearRedraw_soundOut (s : State) : (clearRedraw s).soundOut = s.soundOut := rfl
@[simp] theorem clearRedraw_turns (s : State) : (clearRedraw s).turns = s.turns := rfl
@[simp] theorem clearRedraw_turnNo (s : State) : (clearRedraw s).turnNo = s.turnNo := rfl
@[simp] theorem clearRedraw_font (s : State) : (clearRedraw s).font = s.font := rfl

/-! `takeTurn` -/

@[simp] theorem takeTurn_V (s : State) : (takeTurn s).V = s.V := rfl
@[simp] theorem takeTurn_I (s : State) : (takeTurn s).I = s.I := rfl
@[simp] theorem takeTurn_pc (s : State) : (takeTurn s).pc = s.pc := rfl
@[simp] theorem takeTurn_stack (s : State) : (takeTurn s).stack = s.stack := rfl
@[simp] theorem takeTurn_SP (s : State) : (takeTurn s).SP = s.SP := rfl
@[simp] theorem takeTurn_DT (s : State) : (takeTurn s).DT = s.DT := rfl
@[simp] theorem takeTurn_ST (s : State) : (takeTurn s).ST = s.ST := rfl
@[simp] theorem takeTurn_mem (s : State) : (takeTurn s).mem = s.mem := rfl
@[simp] theorem takeTurn_fb (s : State) : (takeTurn s).fb = s.fb := rfl
@[simp] theorem takeTurn_key (s : State) : (takeTurn s).key = writeKeys s.key (currentTurn s).keyWrites := rfl
@[simp] theorem takeTurn_redraw (s : State) : (takeTurn s).redraw = (s.redraw && !(currentTurn s).clearRedraw) := rfl
@[simp] theorem takeTurn_fault (s : State) : (takeTurn s).fault = s.fault := rfl
@[simp] theorem takeTurn_ticks (s : State) : (takeTurn s).ticks = (currentTurn s).ticks := rfl
@[simp] theorem takeTurn_rnd (s : State) : (takeTurn s).rnd = (currentTurn s).rnd := rfl
@[simp] theorem takeTurn_soundOut (s : State) : (takeTurn s).soundOut = s.soundOut := rfl
@[simp] theorem takeTurn_turns (s : State) : (takeTurn s).turns = s.turns.tail := rfl
@[simp] theorem takeTurn_turnNo (s : State) : (takeTurn s).turnNo = s.turnNo + 1 := rfl
@[simp] theorem takeTurn_font (s : State) : (takeTurn s).font = s.font := rfl

/-! `timerPhase` -/

@[simp] theorem timerPhase_V (s : State) : (timerPhase s).V = s.V := rfl
@[simp] theorem timerPhase_I (s : State) : (timerPhase s).I = s.I := rfl
@[simp] theorem timerPhase_pc (s : State) : (timerPhase s).pc = s.pc := rfl
@[simp] theorem timerPhase_stack (s : State) : (timerPhase s).stack = s.stack := rfl
@[simp] theorem timerPhase_SP (s : State) : (timerPhase s).SP = s.SP := rfl
@[simp] theorem timerPhase_DT (s : State) : (timerPhase s).DT = (tickTimes s.ticks (timersOf s)).DT := rfl
@[simp] theorem timerPhase_ST (s : State) : (timerPhase s).ST = (tickTimes s.ticks (timersOf s)).ST := rfl
@[simp] theorem timerPhase_mem (s : State) : (timerPhase s).mem = s.mem := rfl
@[simp] theorem timerPhase_fb (s : State) : (timerPhase s).fb = s.fb := rfl
@[simp] theorem timerPhase_key (s : State) : (timerPhase s).key = s.key := rfl
@[simp] theorem timerPhase_redraw (s : State) : (timerPhase s).redraw = s.redraw := rfl
@[simp] theorem timerPhase_fault (s : State) : (timerPhase s).fault = s.fault := rfl
@[simp] theorem timerPhase_ticks (s : State) : (timerPhase s).ticks = s.ticks := rfl
@[simp] theorem timerPhase_rnd (s : State) : (timerPhase s).rnd = s.rnd := rfl
@[simp] theorem timerPhase_soundOut (s : State) : (timerPhase s).soundOut = (tickTimes s.ticks (timersOf s)).edge := rfl
@[simp] theorem timerPhase_turns (s : State) : (timerPhase s).turns = s.turns := rfl
@[simp] theorem timerPhase_turnNo (s : State) : (timerPhase s).turnNo = s.turnNo := rfl
@[simp] theorem timerPhase_font (s : State) : (timerPhase s).font = s.font := rfl

/-! The register file. -/

@[simp] theorem getV_setV_same (s : State) (x : Nibble) (v : Byte) : getV (setV s x v) x = v := by
  simp [getV]

theorem getV_setV_ne (s : State) (x r : Nibble) (v : Byte) (h : r ≠ x) : getV (setV s x v) r = getV s r := by
  have hn : x.toNat ≠ r.toNat := fun e => h (BitVec.eq_of_toNat_eq e.symm)
  simp [getV, hn]

theorem getV_congr (s t : State) (r : Nibble) (h : t.V = s.V) : getV t r = getV s r := by
  simp [getV, h]

@[simp] theorem getV_jumpTo (s : State) (a : Word) (r : Nibble) : getV (jumpTo s a) r = getV s r := rfl
@[simp] theorem getV_advance (s : State) (r : Nibble) : getV (advance s) r = getV s r := rfl
@[simp] theorem getV_storeBytes (s : State) (a : Nat) (bs : List Byte) (r : Nibble) :
    getV (storeBytes s a bs) r = getV s r := rfl
@[simp] theorem getV_quiet (s : State) (r : Nibble) : getV (quiet s) r = getV s r := rfl
@[simp] theorem getV_takeTurn (s : State) (r : Nibble) : getV (takeTurn s) r = getV s r := rfl
@[simp] theorem getV_timerPhase (s : State) (r : Nibble) : getV (timerPhase s) r = getV s r := rfl

/-! The machine's memory. -/

/-- The bytes of memory depend on the cells and the font alone. -/
theorem byteAt_congr (s t : State) (a : Nat) (hm : t.mem = s.mem) (hf : t.font = s.font) : byteAt t a = byteAt s a := by
  simp [byteAt, hm, hf]

@[simp] theorem byteAt_setV (s : State) (x : Nibble) (v : Byte) (a : Nat) : byteAt (setV s x v) a = byteAt s a := rfl
@[simp] theorem byteAt_jumpTo (s : State) (p : Word) (a : Nat) : byteAt (jumpTo s p) a = byteAt s a := rfl
@[simp] theorem byteAt_advance (s : State) (a : Nat) : byteAt (advance s) a = byteAt s a := rfl
@[simp] theorem byteAt_quiet (s : State) (a : Nat) : byteAt (quiet s) a = byteAt s a := rfl
@[simp] theorem byteAt_clearRedraw (s : State) (a : Nat) : byteAt (clearRedraw s) a = byteAt s a := rfl
@[simp] theorem byteAt_takeTurn (s : State) (a : Nat) : byteAt (takeTurn s) a = byteAt s a := rfl
@[simp] theorem byteAt_timerPhase (s : State) (a : Nat) : byteAt (timerPhase s) a = byteAt s a := rfl

/-- Two register files with the same registers are equal. -/
theorem V_ext (s t : State) (h : ∀ r, getV s r = getV t r) : s.V = t.V := by
  apply Vector.ext
  intro i hi
  have := h (BitVec.ofNat 4 i)
  simpa [getV, Nat.mod_eq_of_lt hi] using this

@[simp] theorem fetch_quiet (s : State) : fetch (quiet s) = fetch s := rfl

end Sys2Proof.Machine
end

