-- ==== Sys2Proof/Laws/Ops.lean ====
section
/-! SUPPORT. One lemma per shared operation that says once everything it can do. -/

namespace Sys2Proof.Machine

/-! The checks of addresses. -/

theorem mem_effAddrs (base n a : Nat) : a ∈ effAddrs base n ↔ base ≤ a ∧ a < base + n := by
  simp [effAddrs, List.mem_range'_1]

/-- The first address of a run that meets a test: it lies in the run, meets the test, and none before it does. -/
theorem find_effAddrs (p : Nat → Bool) (base n a : Nat) :
    (effAddrs base n).find? p = some a ↔
      base ≤ a ∧ a < base + n ∧ p a = true ∧ ∀ b, base ≤ b → b < a → p b = false := by
  induction n generalizing base with
  | zero =>
    simp only [effAddrs, List.range'_zero, List.find?_nil]
    constructor
    · intro h; simp at h
    · rintro ⟨h1, h2, -⟩; omega
  | succ n ih =>
    simp only [effAddrs] at ih
    simp only [effAddrs, List.range'_succ, List.find?_cons]
    cases hp : p base with
    | true =>
      constructor
      · intro h
        cases h
        exact ⟨Nat.le_refl _, by omega, hp, fun b h1 h2 => by omega⟩
      · rintro ⟨h1, h2, h3, h4⟩
        by_cases e : base = a
        · simp [e]
        · have := h4 base (Nat.le_refl _) (by omega)
          simp [hp] at this
    | false =>
      rw [ih]
      constructor
      · rintro ⟨h1, h2, h3, h4⟩
        refine ⟨by omega, by omega, h3, fun b hb1 hb2 => ?_⟩
        by_cases e : b = base
        · rw [e]; exact hp
        · exact h4 b (by omega) hb2
      · rintro ⟨h1, h2, h3, h4⟩
        have hne : base ≠ a := fun e => by rw [e] at hp; simp [hp] at h3
        exact ⟨by omega, by omega, h3, fun b hb1 hb2 => h4 b (by omega) hb2⟩

theorem find_effAddrs_none (p : Nat → Bool) (base n : Nat) :
    (effAddrs base n).find? p = none ↔ ∀ a, base ≤ a → a < base + n → p a = false := by
  simp only [List.find?_eq_none, mem_effAddrs, Bool.not_eq_true, and_imp]

/-- No read fault: every address of the run exists. -/
theorem readFault_none (base n : Nat) : readFault base n = none ↔ n = 0 ∨ base + n ≤ 4096 := by
  simp only [readFault, Option.map_eq_none_iff, find_effAddrs_none, Config.memSize, decide_eq_false_iff_not]
  constructor
  · intro h
    by_cases hn : n = 0
    · exact .inl hn
    · have := h (base + n - 1) (by omega) (by omega)
      omega
  · intro h a h1 h2
    omega

/-- A read fault is AddressOutOfRange at the lowest address of the run that does not exist. -/
theorem readFault_some (base n : Nat) (k : FaultKind) (a : Nat) :
    readFault base n = some (k, a) ↔ k = .addressOutOfRange ∧ 4096 < base + n ∧ 0 < n ∧ a = max base 4096 := by
  simp only [readFault, Option.map_eq_some_iff, find_effAddrs, Config.memSize, decide_eq_true_eq,
    decide_eq_false_iff_not, Prod.mk.injEq]
  constructor
  · rintro ⟨b, ⟨h1, h2, h3, h4⟩, rfl, rfl⟩
    refine ⟨rfl, by omega, by omega, ?_⟩
    by_cases h : 4096 ≤ base
    · have : ¬ base < b := fun hb => h4 base (Nat.le_refl _) hb h
      omega
    · have : ¬ 4096 < b := fun hb => h4 4096 (by omega) hb (Nat.le_refl _)
      omega
  · rintro ⟨rfl, h1, h2, rfl⟩
    exact ⟨max base 4096, ⟨by omega, by omega, by omega, fun b hb1 hb2 => by omega⟩, rfl, rfl⟩

/-- No write into the font region. -/
theorem romFault_none (base n : Nat) : romFault base n = none ↔ n = 0 ∨ 80 ≤ base := by
  simp only [romFault, Option.map_eq_none_iff, find_effAddrs_none, Config.fontSize, decide_eq_false_iff_not]
  constructor
  · intro h
    by_cases hn : n = 0
    · exact .inl hn
    · have := h base (Nat.le_refl _) (by omega)
      omega
  · intro h a h1 h2
    omega

/-- A write into the font region is RomWrite at the lowest address of the run. -/
theorem romFault_some (base n : Nat) (k : FaultKind) (a : Nat) :
    romFault base n = some (k, a) ↔ k = .romWrite ∧ 0 < n ∧ base < 80 ∧ a = base := by
  simp only [romFault, Option.map_eq_some_iff, find_effAddrs, Config.fontSize, decide_eq_true_eq,
    decide_eq_false_iff_not, Prod.mk.injEq]
  constructor
  · rintro ⟨b, ⟨h1, h2, h3, h4⟩, rfl, rfl⟩
    have : ¬ base < b := fun hb => h4 base (Nat.le_refl _) hb (by omega)
    exact ⟨rfl, by omega, by omega, by omega⟩
  · rintro ⟨rfl, h1, h2, rfl⟩
    exact ⟨a, ⟨Nat.le_refl _, by omega, h2, fun b hb1 hb2 => by omega⟩, rfl, rfl⟩

/-- No write fault: the run lies in the writable memory 0x050 to 0xFFF. -/
theorem writeFault_none (base n : Nat) : writeFault base n = none ↔ n = 0 ∨ (80 ≤ base ∧ base + n ≤ 4096) := by
  unfold writeFault
  cases h : readFault base n with
  | some f =>
    have : ¬ (n = 0 ∨ base + n ≤ 4096) := fun e => by simp [(readFault_none base n).2 e] at h
    simp only [reduceCtorEq, false_iff]
    omega
  | none =>
    have := (readFault_none base n).1 h
    simp only [romFault_none]
    omega

/-- A write fault: the range check comes first, then the font region (R229). -/
theorem writeFault_some (base n : Nat) (k : FaultKind) (a : Nat) :
    writeFault base n = some (k, a) ↔
      0 < n ∧ ((k = .addressOutOfRange ∧ 4096 < base + n ∧ a = max base 4096) ∨
        (k = .romWrite ∧ base + n ≤ 4096 ∧ base < 80 ∧ a = base)) := by
  unfold writeFault
  cases h : readFault base n with
  | some f =>
    obtain ⟨k', a'⟩ := f
    obtain ⟨rfl, h1, h2, rfl⟩ := (readFault_some base n k' a').1 h
    simp only [Option.some.injEq, Prod.mk.injEq]
    constructor
    · rintro ⟨rfl, rfl⟩; exact ⟨h2, .inl ⟨rfl, h1, rfl⟩⟩
    · rintro ⟨-, ⟨rfl, -, rfl⟩ | ⟨-, h3, -⟩⟩
      · exact ⟨rfl, rfl⟩
      · omega
  | none =>
    have := (readFault_none base n).1 h
    rw [romFault_some]
    constructor
    · rintro ⟨rfl, h1, h2, rfl⟩; exact ⟨h1, .inr ⟨rfl, by omega, h2, rfl⟩⟩
    · rintro ⟨h1, ⟨-, h2, -⟩ | ⟨rfl, -, h3, rfl⟩⟩
      · omega
      · exact ⟨rfl, h1, h3, rfl⟩

/-! Raising a fault. -/

/-- All that raising a fault does: it answers a next state in which only the latch differs. -/
theorem raise_next (k : FaultKind) (o : Option Word) (n : Option Nat) (s t : State) :
    raise k o n s = .next t ↔ t = { s with fault := some { kind := k, pc := s.pc, opcode := o, info := n } } := by
  simp [raise, eq_comm]

/-! The program counter. -/

theorem skipIf_true (s : State) : skipIf true s = jumpTo s (trunc16 (s.pc.toNat + 4)) := rfl
theorem skipIf_false (s : State) : skipIf false s = advance s := rfl

/-- A skip changes the pc alone. -/
theorem skipIf_eq (c : Bool) (s : State) : skipIf c s = { s with pc := (skipIf c s).pc } := by cases c <;> rfl

theorem skipIf_pc (c : Bool) (s : State) : (skipIf c s).pc = trunc16 (s.pc.toNat + if c then 4 else 2) := by
  cases c <;> rfl

@[simp] theorem byteAt_skipIf (c : Bool) (s : State) (a : Nat) : byteAt (skipIf c s) a = byteAt s a := by cases c <;> rfl
@[simp] theorem getV_skipIf (c : Bool) (s : State) (r : Nibble) : getV (skipIf c s) r = getV s r := by cases c <;> rfl

/-! The call stack. -/

theorem push_none (s : State) (v : Word) : push s v = none ↔ s.SP.val = 16 := by
  have := s.SP.isLt
  unfold push
  split
  · simp only [reduceCtorEq, false_iff]; omega
  · simp only [true_iff]; omega

/-- A push with room: the slot at SP holds the value, the other slots are kept, and SP is one more. -/
theorem push_some (s t : State) (v : Word) (h : push s v = some t) :
    ∃ hs : s.SP.val < 16, t.SP.val = s.SP.val + 1 ∧ t.stack = s.stack.set s.SP.val v hs ∧
      t = { s with stack := t.stack, SP := t.SP } := by
  unfold push at h
  split at h
  · next hs => cases h; exact ⟨hs, rfl, rfl, rfl⟩
  · simp at h

theorem pop_none (s : State) : pop s = none ↔ s.SP.val = 0 := by
  unfold pop
  split
  · next h => simpa using h
  · next h => simpa using h

/-- A pop of an occupied stack: the value of the slot below SP, and SP is one less; the slots are kept. -/
theorem pop_some (s t : State) (v : Word) (h : pop s = some (v, t)) :
    ∃ hs : s.SP.val - 1 < 16, 0 < s.SP.val ∧ v = s.stack[s.SP.val - 1]'hs ∧ t.SP.val = s.SP.val - 1 ∧
      t = { s with SP := t.SP } := by
  have := s.SP.isLt
  unfold pop at h
  split at h
  · simp at h
  · next hs => cases h; exact ⟨by omega, by omega, rfl, rfl, rfl⟩

/-! Register transfers. -/

/-- The k-th register after loading the first n. -/
theorem getElem_loadRegs (s : State) (base n : Nat) (V : Vector Byte 16) (k : Nat) (hk : k < 16) :
    (loadRegs s base n V)[k] = if k < n then byteAt s (base + k) else V[k] := by
  induction n with
  | zero => simp [loadRegs]
  | succ n ih =>
    rw [loadRegs, Vector.getElem_setIfInBounds, ih]
    by_cases h : n = k
    · subst h; simp
    · simp only [h, if_false]
      have : (k < n + 1) ↔ (k < n) := by omega
      simp only [this]

theorem length_regsUpTo (s : State) (x : Nibble) : (regsUpTo s x).length = x.toNat + 1 := by
  have := x.isLt
  simp [regsUpTo, upTo]
  omega

theorem getElem_regsUpTo (s : State) (x : Nibble) (k : Nat) (hk : k < (regsUpTo s x).length) :
    (regsUpTo s x)[k] = getV s (BitVec.ofNat 4 k) := by
  have h1 := x.isLt
  have h2 := length_regsUpTo s x
  have h3 : k % 16 = k := Nat.mod_eq_of_lt (by omega)
  simp [regsUpTo, getV, h3]

theorem length_decimalDigits (v : Byte) : (decimalDigits v).length = 3 := rfl

theorem getElem_readBytes (font : Font) (m : Memory) (a n k : Nat) (h : k < (m.readBytes font a n).length) :
    (m.readBytes font a n)[k] = m.read font (a + k) := by
  simp [Memory.readBytes]

theorem length_readBytes (font : Font) (m : Memory) (a n : Nat) : (m.readBytes font a n).length = n := by
  simp [Memory.readBytes]

end Sys2Proof.Machine
end

