-- ==== Sys2Proof/Laws/Cycle.lean ====
section
/-! SUPPORT. All that the core's step can do, said once. -/

namespace Sys2Proof.Machine

/-- The fetch: a word at an address that exists together with the next one, else the first address that does not. -/
theorem fetch_ok (s : State) (w : Word) :
    fetch s = .ok w ↔ s.pc.toNat ≤ 0xFFE ∧ w = byteAt s s.pc.toNat ++ byteAt s (s.pc.toNat + 1) := by
  unfold fetch
  cases h : readFault s.pc.toNat 2 with
  | none =>
    have := (readFault_none _ _).1 h
    simp only [Except.ok.injEq]
    constructor
    · rintro rfl; exact ⟨by omega, rfl⟩
    · rintro ⟨-, rfl⟩; rfl
  | some f =>
    obtain ⟨k, a⟩ := f
    obtain ⟨-, h1, -⟩ := (readFault_some _ _ _ _).1 h
    simp only [reduceCtorEq, false_iff]
    rintro ⟨h2, -⟩
    omega

theorem fetch_error (s : State) (a : Nat) :
    fetch s = .error a ↔ 0xFFF ≤ s.pc.toNat ∧ a = max s.pc.toNat 4096 := by
  unfold fetch
  cases h : readFault s.pc.toNat 2 with
  | none =>
    have := (readFault_none _ _).1 h
    simp only [reduceCtorEq, false_iff]
    rintro ⟨h2, -⟩
    omega
  | some f =>
    obtain ⟨k, b⟩ := f
    obtain ⟨-, h1, -, rfl⟩ := (readFault_some _ _ _ _).1 h
    simp only [Except.error.injEq]
    constructor
    · rintro rfl; exact ⟨by omega, rfl⟩
    · rintro ⟨-, rfl⟩; rfl

theorem finish_next (r : Result) (t : State) :
    finish r = .next t ↔ ∃ u, r = .next u ∧ t = if u.fault.isSome then u else timerPhase u := by
  cases r with
  | next u => exact ⟨fun h => ⟨u, rfl, (Host.Outcome.next.inj h).symm⟩, fun ⟨_, h, ht⟩ => by cases h; rw [ht]; rfl⟩
  | fault e => cases e
  | refused e => simp [finish]

/-- The core's step of a halted machine. -/
theorem cycle_halted (s : State) (r : FaultRecord) (h : s.fault = some r) : cycle s = .next (quiet s) := by
  simp [cycle, h]

/-- The core's step of a running machine: a fetch fault, an illegal word, or the decoded instruction. -/
theorem cycle_running (s : State) (h : s.fault = none) :
    (∃ a, fetch s = .error a ∧ cycle s = raise .addressOutOfRange none (some a) (quiet s)) ∨
    (∃ w, fetch s = .ok w ∧ decodeRow w = none ∧
      cycle s = raise .illegalOpcode (some w) (some w.toNat) (quiet s)) ∨
    (∃ w i, fetch s = .ok w ∧ decodeRow w = some i ∧ cycle s = finish (exec i (quiet s))) := by
  have hf : fetch (quiet s) = fetch s := rfl
  unfold cycle
  simp only [h, Option.isSome_none, Bool.false_eq_true, if_false, hf]
  cases hw : fetch s with
  | error a => exact .inl ⟨a, rfl, rfl⟩
  | ok w =>
    refine .inr ?_
    cases hd : decodeRow w with
    | none => exact .inl ⟨w, rfl, hd, by simp [runWord, decodeWord, hd]⟩
    | some i => exact .inr ⟨w, i, rfl, hd, by simp [runWord, decodeWord, hd]⟩

end Sys2Proof.Machine
end

