-- ==== Sys2Proof/Laws/Decode.lean ====
section
/-! SUPPORT. The fields of the words that the encoder builds, one lemma per field and shape, and the decoder on two bytes. -/

namespace Sys2Proof

theorem ext16 {a b : Word} (h : ∀ i, i < 16 → a.getLsbD i = b.getLsbD i) : a = b :=
  BitVec.eq_of_getLsbD_eq fun i hi => h i hi

/-! The bits of the three shapes. -/

theorem getLsbD_wordNNN (op : Nibble) (nnn : Addr12) (i : Nat) :
    (wordNNN op nnn).getLsbD i = if i < 12 then nnn.getLsbD i else op.getLsbD (i - 12) := by
  unfold wordNNN
  rw [BitVec.getLsbD_append]

theorem getLsbD_wordXNN (op x : Nibble) (nn : Byte) (i : Nat) :
    (wordXNN op x nn).getLsbD i =
      if i < 8 then nn.getLsbD i else if i < 12 then x.getLsbD (i - 8) else op.getLsbD (i - 12) := by
  unfold wordXNN
  rw [BitVec.getLsbD_append, BitVec.getLsbD_append]
  have h : (i - 8 < 4) ↔ (i < 12 ∨ i < 8) := by omega
  by_cases h8 : i < 8
  · simp [h8]
  · by_cases h12 : i < 12
    · simp [h8, h12, h]
    · simp [h8, h12, h, Nat.sub_sub]

theorem getLsbD_wordXYN (op x y n : Nibble) (i : Nat) :
    (wordXYN op x y n).getLsbD i =
      if i < 4 then n.getLsbD i else if i < 8 then y.getLsbD (i - 4)
      else if i < 12 then x.getLsbD (i - 8) else op.getLsbD (i - 12) := by
  unfold wordXYN
  rw [BitVec.getLsbD_append, BitVec.getLsbD_append, BitVec.getLsbD_append]
  have h : (i - 4 < 4) ↔ (i < 8 ∨ i < 4) := by omega
  have h' : (i - 8 < 4) ↔ (i < 12 ∨ i < 8) := by omega
  by_cases h4 : i < 4
  · simp [h4]
  · by_cases h8 : i < 8
    · simp [h4, h8, h]
    · by_cases h12 : i < 12
      · simp [h4, h8, h12, h, h', Nat.sub_sub]
      · simp [h4, h8, h12, h, h', Nat.sub_sub]

/-! The fields of the three shapes. -/

@[simp] theorem fieldOp_wordNNN (op : Nibble) (nnn : Addr12) : fieldOp (wordNNN op nnn) = op := by
  refine BitVec.eq_of_getLsbD_eq fun i hi => ?_
  simp [fieldOp, getLsbD_wordNNN, hi]

@[simp] theorem fieldNNN_wordNNN (op : Nibble) (nnn : Addr12) : fieldNNN (wordNNN op nnn) = nnn := by
  refine BitVec.eq_of_getLsbD_eq fun i hi => ?_
  simp [fieldNNN, getLsbD_wordNNN, hi]

@[simp] theorem fieldOp_wordXNN (op x : Nibble) (nn : Byte) : fieldOp (wordXNN op x nn) = op := by
  refine BitVec.eq_of_getLsbD_eq fun i hi => ?_
  have h : ¬ 12 + i < 8 := by omega
  simp [fieldOp, getLsbD_wordXNN, hi, h]

@[simp] theorem fieldX_wordXNN (op x : Nibble) (nn : Byte) : fieldX (wordXNN op x nn) = x := by
  refine BitVec.eq_of_getLsbD_eq fun i hi => ?_
  have h : 8 + i < 12 := by omega
  simp [fieldX, getLsbD_wordXNN, hi, h]

@[simp] theorem fieldNN_wordXNN (op x : Nibble) (nn : Byte) : fieldNN (wordXNN op x nn) = nn := by
  refine BitVec.eq_of_getLsbD_eq fun i hi => ?_
  simp [fieldNN, getLsbD_wordXNN, hi]

@[simp] theorem fieldOp_wordXYN (op x y n : Nibble) : fieldOp (wordXYN op x y n) = op := by
  refine BitVec.eq_of_getLsbD_eq fun i hi => ?_
  have h : ¬ 12 + i < 8 := by omega
  have h' : ¬ 12 + i < 4 := by omega
  simp [fieldOp, getLsbD_wordXYN, hi, h, h']

@[simp] theorem fieldX_wordXYN (op x y n : Nibble) : fieldX (wordXYN op x y n) = x := by
  refine BitVec.eq_of_getLsbD_eq fun i hi => ?_
  have h : 8 + i < 12 := by omega
  have h' : ¬ 8 + i < 4 := by omega
  simp [fieldX, getLsbD_wordXYN, hi, h, h']

@[simp] theorem fieldY_wordXYN (op x y n : Nibble) : fieldY (wordXYN op x y n) = y := by
  refine BitVec.eq_of_getLsbD_eq fun i hi => ?_
  have h : 4 + i < 8 := by omega
  simp [fieldY, getLsbD_wordXYN, hi, h]

@[simp] theorem fieldN_wordXYN (op x y n : Nibble) : fieldN (wordXYN op x y n) = n := by
  refine BitVec.eq_of_getLsbD_eq fun i hi => ?_
  simp [fieldN, getLsbD_wordXYN, hi]

/-! A word from its fields. -/

theorem wordNNN_fields (w : Word) : wordNNN (fieldOp w) (fieldNNN w) = w := by
  refine ext16 fun i hi => ?_
  simp only [getLsbD_wordNNN, fieldOp, fieldNNN, BitVec.getLsbD_extractLsb']
  split
  · next h => simp [h]
  · next h => simp [show i - 12 < 4 by omega, show 12 + (i - 12) = i by omega]

theorem wordXNN_fields (w : Word) : wordXNN (fieldOp w) (fieldX w) (fieldNN w) = w := by
  refine ext16 fun i hi => ?_
  simp only [getLsbD_wordXNN, fieldOp, fieldX, fieldNN, BitVec.getLsbD_extractLsb']
  split
  · next h => simp [h]
  · split
    · simp [show i - 8 < 4 by omega, show 8 + (i - 8) = i by omega]
    · simp [show i - 12 < 4 by omega, show 12 + (i - 12) = i by omega]

theorem wordXYN_fields (w : Word) : wordXYN (fieldOp w) (fieldX w) (fieldY w) (fieldN w) = w := by
  refine ext16 fun i hi => ?_
  simp only [getLsbD_wordXYN, fieldOp, fieldX, fieldY, fieldN, BitVec.getLsbD_extractLsb']
  split
  · next h => simp [h]
  · split
    · simp [show i - 4 < 4 by omega, show 4 + (i - 4) = i by omega]
    · split
      · simp [show i - 8 < 4 by omega, show 8 + (i - 8) = i by omega]
      · simp [show i - 12 < 4 by omega, show 12 + (i - 12) = i by omega]

/-- Two bytes and what follows them: the decoder reads the word they make, the first byte high. -/
theorem decodeBytes_cons (hi lo : Byte) (rest : List Byte) :
    decodeBytes (hi :: lo :: rest) =
      match decodeWord (hi ++ lo) with
      | .ok i => .ok (i, rest)
      | .error e => .error e := rfl

theorem decodeWord_ok (w : Word) (i : Instr) : decodeWord w = .ok i ↔ decodeRow w = some i := by
  unfold decodeWord
  cases decodeRow w <;> simp

theorem decodeWord_error (w : Word) (e : DecodeReject) :
    decodeWord w = .error e ↔ decodeRow w = none ∧ e = .illegal w := by
  unfold decodeWord
  cases decodeRow w <;> simp [eq_comm]

end Sys2Proof
end

