-- ==== Sys2Proof/Laws/Framebuffer.lean ====
section
/-! SUPPORT. The laws of the framebuffer: a pixel after an inversion, a cleared screen, and one sprite bit. -/

namespace Sys2Proof.Machine

/-- The pixel named is inverted if it lies on the screen, and every other pixel is kept. -/
theorem pixel_togglePixel (fb : Framebuffer) (x y a b : Nat) :
    pixel (togglePixel fb x y) a b =
      if x = a ∧ y = b ∧ a < 64 ∧ b < 32 then !pixel fb a b else pixel fb a b := by
  unfold togglePixel
  split
  · next h =>
    unfold pixel
    by_cases hab : a < 64 ∧ b < 32
    · by_cases hy : y = b
      · subst hy
        by_cases hx : x = a
        · subst hx; simp [h]
        · simp [h, hab, hx]
      · simp [hab, hy]
    · simp [hab]
  · next h =>
    have : ¬ (x = a ∧ y = b ∧ a < 64 ∧ b < 32) := by rintro ⟨rfl, rfl, e⟩; exact h e
    simp [this]

theorem pixel_clearScreen (x y : Nat) : pixel clearScreen x y = false := by
  unfold pixel clearScreen
  split <;> simp

/-- Two framebuffers with the same pixels are equal. -/
theorem framebuffer_ext (f g : Framebuffer) (h : ∀ x y, x < 64 → y < 32 → pixel f x y = pixel g x y) : f = g := by
  apply Vector.ext
  intro y hy
  apply Vector.ext
  intro x hx
  have := h x y hx hy
  simpa [pixel, hx, hy] using this

/-- One sprite bit: the pixels it leaves, and the collision. -/
theorem pixel_drawBit (d : Drawing) (px py : Nat) (bit : Bool) (a b : Nat) :
    pixel (drawBit d px py bit).fb a b =
      (pixel d.fb a b ^^ (bit && decide (px = a ∧ py = b ∧ a < 64 ∧ b < 32))) := by
  unfold drawBit
  split
  · next h =>
    simp only [pixel_togglePixel, h.1, Bool.true_and]
    by_cases e : px = a ∧ py = b ∧ a < 64 ∧ b < 32 <;> simp [e]
  · next h =>
    by_cases e : bit = true
    · have : ¬ (px = a ∧ py = b ∧ a < 64 ∧ b < 32) := by
        rintro ⟨rfl, rfl, h'⟩
        exact h ⟨e, by simpa using h'⟩
      simp [this]
    · simp [e]

theorem collision_drawBit (d : Drawing) (px py : Nat) (bit : Bool) :
    (drawBit d px py bit).collision = (d.collision || (bit && pixel d.fb px py)) := by
  unfold drawBit
  split
  · next h => simp [h.1]
  · next h =>
    by_cases e : bit = true
    · have : pixel d.fb px py = false := by
        have h' : ¬ (px < 64 ∧ py < 32) := fun h' => h ⟨e, by simpa using h'⟩
        simp [pixel, h']
      simp [this]
    · simp [e]

end Sys2Proof.Machine
end

