-- ==== Sys2Proof/Laws/PerInstr.lean ====
section
/-! SUPPORT. The per-instruction family EncodesItsRow: the word of an instruction matches its own row of the opcode map of
spec/30_encoding.md R75, and the row is in the map. -/

namespace Sys2Proof.Laws.EncodesItsRow

/-- The word of the instruction matches its own row, which is a row of the map (R75). -/
def Statement (i : Instr) : Prop := rowOf i ∈ opcodeRows ∧ (rowOf i).matchesWord (encode i) = true

theorem wordNNN_row (op : Nibble) (nnn : Addr12) : wordNNN op nnn &&& 0xF000#16 = wordNNN op 0 := by
  refine ext16 fun i hi => ?_
  simp only [BitVec.getLsbD_and, getLsbD_wordNNN]
  interval_cases i <;> simp

theorem wordXNN_row (op x : Nibble) (nn : Byte) : wordXNN op x nn &&& 0xF000#16 = wordXNN op 0 0 := by
  refine ext16 fun i hi => ?_
  simp only [BitVec.getLsbD_and, getLsbD_wordXNN]
  interval_cases i <;> simp

theorem wordXss_row (op x : Nibble) (nn : Byte) : wordXNN op x nn &&& 0xF0FF#16 = wordXNN op 0 nn := by
  refine ext16 fun i hi => ?_
  simp only [BitVec.getLsbD_and, getLsbD_wordXNN]
  interval_cases i <;> simp

theorem wordXYN_row (op x y n : Nibble) : wordXYN op x y n &&& 0xF000#16 = wordXYN op 0 0 0 := by
  refine ext16 fun i hi => ?_
  simp only [BitVec.getLsbD_and, getLsbD_wordXYN]
  interval_cases i <;> simp

theorem wordXYs_row (op x y n : Nibble) : wordXYN op x y n &&& 0xF00F#16 = wordXYN op 0 0 n := by
  refine ext16 fun i hi => ?_
  simp only [BitVec.getLsbD_and, getLsbD_wordXYN]
  interval_cases i <;> simp

theorem cls : Statement .cls := by unfold Statement; decide
theorem ret : Statement .ret := by unfold Statement; decide
theorem jp (nnn : Addr12) : Statement (.jp nnn) :=
  ⟨by simp [opcodeRows, opcodeRowsLow, opcodeRowsHigh, rowOf],
    by simp only [OpcodeRow.matchesWord, rowOf, encode, wordNNN_row]; decide⟩
theorem call (nnn : Addr12) : Statement (.call nnn) :=
  ⟨by simp [opcodeRows, opcodeRowsLow, opcodeRowsHigh, rowOf],
    by simp only [OpcodeRow.matchesWord, rowOf, encode, wordNNN_row]; decide⟩
theorem seVxNn (x : Nibble) (nn : Byte) : Statement (.seVxNn x nn) :=
  ⟨by simp [opcodeRows, opcodeRowsLow, opcodeRowsHigh, rowOf],
    by simp only [OpcodeRow.matchesWord, rowOf, encode, wordXNN_row]; decide⟩
theorem sneVxNn (x : Nibble) (nn : Byte) : Statement (.sneVxNn x nn) :=
  ⟨by simp [opcodeRows, opcodeRowsLow, opcodeRowsHigh, rowOf],
    by simp only [OpcodeRow.matchesWord, rowOf, encode, wordXNN_row]; decide⟩
theorem seVxVy (x : Nibble) (y : Nibble) : Statement (.seVxVy x y) :=
  ⟨by simp [opcodeRows, opcodeRowsLow, opcodeRowsHigh, rowOf],
    by simp only [OpcodeRow.matchesWord, rowOf, encode, wordXYs_row]; decide⟩
theorem ldVxNn (x : Nibble) (nn : Byte) : Statement (.ldVxNn x nn) :=
  ⟨by simp [opcodeRows, opcodeRowsLow, opcodeRowsHigh, rowOf],
    by simp only [OpcodeRow.matchesWord, rowOf, encode, wordXNN_row]; decide⟩
theorem addVxNn (x : Nibble) (nn : Byte) : Statement (.addVxNn x nn) :=
  ⟨by simp [opcodeRows, opcodeRowsLow, opcodeRowsHigh, rowOf],
    by simp only [OpcodeRow.matchesWord, rowOf, encode, wordXNN_row]; decide⟩
theorem ldVxVy (x : Nibble) (y : Nibble) : Statement (.ldVxVy x y) :=
  ⟨by simp [opcodeRows, opcodeRowsLow, opcodeRowsHigh, rowOf],
    by simp only [OpcodeRow.matchesWord, rowOf, encode, wordXYs_row]; decide⟩
theorem or (x : Nibble) (y : Nibble) : Statement (.or x y) :=
  ⟨by simp [opcodeRows, opcodeRowsLow, opcodeRowsHigh, rowOf],
    by simp only [OpcodeRow.matchesWord, rowOf, encode, wordXYs_row]; decide⟩
theorem and (x : Nibble) (y : Nibble) : Statement (.and x y) :=
  ⟨by simp [opcodeRows, opcodeRowsLow, opcodeRowsHigh, rowOf],
    by simp only [OpcodeRow.matchesWord, rowOf, encode, wordXYs_row]; decide⟩
theorem xor (x : Nibble) (y : Nibble) : Statement (.xor x y) :=
  ⟨by simp [opcodeRows, opcodeRowsLow, opcodeRowsHigh, rowOf],
    by simp only [OpcodeRow.matchesWord, rowOf, encode, wordXYs_row]; decide⟩
theorem addVxVy (x : Nibble) (y : Nibble) : Statement (.addVxVy x y) :=
  ⟨by simp [opcodeRows, opcodeRowsLow, opcodeRowsHigh, rowOf],
    by simp only [OpcodeRow.matchesWord, rowOf, encode, wordXYs_row]; decide⟩
theorem sub (x : Nibble) (y : Nibble) : Statement (.sub x y) :=
  ⟨by simp [opcodeRows, opcodeRowsLow, opcodeRowsHigh, rowOf],
    by simp only [OpcodeRow.matchesWord, rowOf, encode, wordXYs_row]; decide⟩
theorem shr (x : Nibble) (y : Nibble) : Statement (.shr x y) :=
  ⟨by simp [opcodeRows, opcodeRowsLow, opcodeRowsHigh, rowOf],
    by simp only [OpcodeRow.matchesWord, rowOf, encode, wordXYs_row]; decide⟩
theorem subn (x : Nibble) (y : Nibble) : Statement (.subn x y) :=
  ⟨by simp [opcodeRows, opcodeRowsLow, opcodeRowsHigh, rowOf],
    by simp only [OpcodeRow.matchesWord, rowOf, encode, wordXYs_row]; decide⟩
theorem shl (x : Nibble) (y : Nibble) : Statement (.shl x y) :=
  ⟨by simp [opcodeRows, opcodeRowsLow, opcodeRowsHigh, rowOf],
    by simp only [OpcodeRow.matchesWord, rowOf, encode, wordXYs_row]; decide⟩
theorem sneVxVy (x : Nibble) (y : Nibble) : Statement (.sneVxVy x y) :=
  ⟨by simp [opcodeRows, opcodeRowsLow, opcodeRowsHigh, rowOf],
    by simp only [OpcodeRow.matchesWord, rowOf, encode, wordXYs_row]; decide⟩
theorem ldINnn (nnn : Addr12) : Statement (.ldINnn nnn) :=
  ⟨by simp [opcodeRows, opcodeRowsLow, opcodeRowsHigh, rowOf],
    by simp only [OpcodeRow.matchesWord, rowOf, encode, wordNNN_row]; decide⟩
theorem jpV0 (nnn : Addr12) : Statement (.jpV0 nnn) :=
  ⟨by simp [opcodeRows, opcodeRowsLow, opcodeRowsHigh, rowOf],
    by simp only [OpcodeRow.matchesWord, rowOf, encode, wordNNN_row]; decide⟩
theorem rnd (x : Nibble) (nn : Byte) : Statement (.rnd x nn) :=
  ⟨by simp [opcodeRows, opcodeRowsLow, opcodeRowsHigh, rowOf],
    by simp only [OpcodeRow.matchesWord, rowOf, encode, wordXNN_row]; decide⟩
theorem drw (x : Nibble) (y : Nibble) (n : Nibble) : Statement (.drw x y n) :=
  ⟨by simp [opcodeRows, opcodeRowsLow, opcodeRowsHigh, rowOf],
    by simp only [OpcodeRow.matchesWord, rowOf, encode, wordXYN_row]; decide⟩
theorem skp (x : Nibble) : Statement (.skp x) :=
  ⟨by simp [opcodeRows, opcodeRowsLow, opcodeRowsHigh, rowOf],
    by simp only [OpcodeRow.matchesWord, rowOf, encode, wordXss_row]; decide⟩
theorem sknp (x : Nibble) : Statement (.sknp x) :=
  ⟨by simp [opcodeRows, opcodeRowsLow, opcodeRowsHigh, rowOf],
    by simp only [OpcodeRow.matchesWord, rowOf, encode, wordXss_row]; decide⟩
theorem ldVxDt (x : Nibble) : Statement (.ldVxDt x) :=
  ⟨by simp [opcodeRows, opcodeRowsLow, opcodeRowsHigh, rowOf],
    by simp only [OpcodeRow.matchesWord, rowOf, encode, wordXss_row]; decide⟩
theorem ldVxK (x : Nibble) : Statement (.ldVxK x) :=
  ⟨by simp [opcodeRows, opcodeRowsLow, opcodeRowsHigh, rowOf],
    by simp only [OpcodeRow.matchesWord, rowOf, encode, wordXss_row]; decide⟩
theorem ldDtVx (x : Nibble) : Statement (.ldDtVx x) :=
  ⟨by simp [opcodeRows, opcodeRowsLow, opcodeRowsHigh, rowOf],
    by simp only [OpcodeRow.matchesWord, rowOf, encode, wordXss_row]; decide⟩
theorem ldStVx (x : Nibble) : Statement (.ldStVx x) :=
  ⟨by simp [opcodeRows, opcodeRowsLow, opcodeRowsHigh, rowOf],
    by simp only [OpcodeRow.matchesWord, rowOf, encode, wordXss_row]; decide⟩
theorem addIVx (x : Nibble) : Statement (.addIVx x) :=
  ⟨by simp [opcodeRows, opcodeRowsLow, opcodeRowsHigh, rowOf],
    by simp only [OpcodeRow.matchesWord, rowOf, encode, wordXss_row]; decide⟩
theorem ldFVx (x : Nibble) : Statement (.ldFVx x) :=
  ⟨by simp [opcodeRows, opcodeRowsLow, opcodeRowsHigh, rowOf],
    by simp only [OpcodeRow.matchesWord, rowOf, encode, wordXss_row]; decide⟩
theorem ldBVx (x : Nibble) : Statement (.ldBVx x) :=
  ⟨by simp [opcodeRows, opcodeRowsLow, opcodeRowsHigh, rowOf],
    by simp only [OpcodeRow.matchesWord, rowOf, encode, wordXss_row]; decide⟩
theorem ldMiVx (x : Nibble) : Statement (.ldMiVx x) :=
  ⟨by simp [opcodeRows, opcodeRowsLow, opcodeRowsHigh, rowOf],
    by simp only [OpcodeRow.matchesWord, rowOf, encode, wordXss_row]; decide⟩
theorem ldVxMi (x : Nibble) : Statement (.ldVxMi x) :=
  ⟨by simp [opcodeRows, opcodeRowsLow, opcodeRowsHigh, rowOf],
    by simp only [OpcodeRow.matchesWord, rowOf, encode, wordXss_row]; decide⟩

end Sys2Proof.Laws.EncodesItsRow
end

