-- ==== Sys2Proof/Laws/Timers.lean ====
section
/-! SUPPORT. The laws of one timer tick. -/

namespace Sys2Proof.Machine

/-- A timer one tick later, as a natural: one less, and 0 stays 0. -/
theorem countDown_toNat (v : Byte) : (countDown v).toNat = v.toNat - 1 := by
  have := v.isLt
  unfold countDown
  split
  · next h => subst h; rfl
  · simp only [trunc8, BitVec.toNat_ofNat]
    omega

theorem tickTimes_zero (t : TimerBlock) : tickTimes 0 t = t := rfl
theorem tickTimes_succ (n : Nat) (t : TimerBlock) : tickTimes (n + 1) t = tickTimes n (tick t) := rfl

end Sys2Proof.Machine
end

