-- ==== Sys2Proof/Tests/Slice0.lean ====
section
/-! SUPPORT. The model's own tests and the witnesses that the hypotheses of the statements can be met. Expected values are those
of spec/95_test_vectors.md (the vector is named in each comment) or of the example in the instruction's rule. -/

namespace Sys2Proof.Tests

open Sys2Proof.Machine

/-- The property holds of the next state; false of a fault or a refusal. -/
def holds (r : Result) (p : State → Bool) : Bool :=
  match r with
  | .next t => p t
  | .fault _ => false
  | .refused _ => false

/-- One step that runs the word `w` at the pc, with these inputs and no move of the host. -/
def stepWith (w : Word) (ticks : Nat) (rnd : Byte) (s : State) : Result :=
  step { s.withFetchWord 16 w.toNat with turns := [⟨[], false, ticks, rnd⟩] }

/-- One step of the vectors' convention: `ticks = 1`, `rnd = 0`. -/
def run (w : Word) (s : State) : Result := stepWith w 1 0 s

/-- The reset state with these general registers written. -/
def regs (l : List (Nibble × Byte)) : State := l.foldl (fun s p => setV s p.1 p.2) State.reset

/-- The state with the index register set. -/
def withI (s : State) (i : Word) : State := { s with I := i }

/-- The state with the pc set. -/
def atPc (s : State) (p : Word) : State := { s with pc := p }

/-- The state with these bytes in memory from `a` upward. -/
def withMem (s : State) (a : Nat) (bs : List Byte) : State := storeBytes s a bs

/-- The state with these keys pressed. -/
def withKeys (s : State) (ks : List Nat) : State := { s with key := ks.foldl (fun v k => v.setIfInBounds k true) s.key }

/-- The state with the pixel lit. -/
def withPixel (s : State) (x y : Nat) : State := { s with fb := togglePixel s.fb x y }

/-- A state with `n` occupied slots, the slot k holding 0x300 + k. -/
def withStack (s : State) (n : Fin 17) : State :=
  { s with SP := n, stack := Vector.ofFn fun k => BitVec.ofNat 16 (0x300 + k.val) }

/-- The fault record of a step that raised a fault in the instruction `w` at `p`. -/
def latch (k : FaultKind) (p w : Word) (info : Option Nat) : Option FaultRecord := some ⟨k, p, some w, info⟩

/-- The first `n` pixels of row `y`. -/
def rowStart (s : State) (n y : Nat) : List Bool := (List.range n).map fun x => pixel s.fb x y

/-! ## Decoding: one word of every instruction, written out bit by bit from the encodings of R75 -/

theorem test_decode_cls : decodeWord 0b0000000011100000#16 = .ok .cls := by decide
theorem test_decode_ret : decodeWord 0b0000000011101110#16 = .ok .ret := by decide
theorem test_decode_jp : decodeWord 0b0001011001100110#16 = .ok (.jp 0x666#12) := by decide
theorem test_decode_call : decodeWord 0b0010001000010000#16 = .ok (.call 0x210#12) := by decide
theorem test_decode_seVxNn : decodeWord 0b0011000110100101#16 = .ok (.seVxNn 0x1#4 0xA5#8) := by decide
theorem test_decode_sneVxNn : decodeWord 0b0100001000000101#16 = .ok (.sneVxNn 0x2#4 0x05#8) := by decide
theorem test_decode_seVxVy : decodeWord 0b0101001101000000#16 = .ok (.seVxVy 0x3#4 0x4#4) := by decide
theorem test_decode_ldVxNn : decodeWord 0b0110101001111011#16 = .ok (.ldVxNn 0xA#4 0x7B#8) := by decide
theorem test_decode_addVxNn : decodeWord 0b0111000111111110#16 = .ok (.addVxNn 0x1#4 0xFE#8) := by decide
theorem test_decode_ldVxVy : decodeWord 0b1000000100100000#16 = .ok (.ldVxVy 0x1#4 0x2#4) := by decide
theorem test_decode_or : decodeWord 0b1000000100100001#16 = .ok (.or 0x1#4 0x2#4) := by decide
theorem test_decode_and : decodeWord 0b1000001101000010#16 = .ok (.and 0x3#4 0x4#4) := by decide
theorem test_decode_xor : decodeWord 0b1000010101100011#16 = .ok (.xor 0x5#4 0x6#4) := by decide
theorem test_decode_addVxVy : decodeWord 0b1000011110000100#16 = .ok (.addVxVy 0x7#4 0x8#4) := by decide
theorem test_decode_sub : decodeWord 0b1000100110100101#16 = .ok (.sub 0x9#4 0xA#4) := by decide
theorem test_decode_shr : decodeWord 0b1000101010110110#16 = .ok (.shr 0xA#4 0xB#4) := by decide
theorem test_decode_subn : decodeWord 0b1000110011010111#16 = .ok (.subn 0xC#4 0xD#4) := by decide
theorem test_decode_shl : decodeWord 0b1000111011111110#16 = .ok (.shl 0xE#4 0xF#4) := by decide
theorem test_decode_sneVxVy : decodeWord 0b1001000100100000#16 = .ok (.sneVxVy 0x1#4 0x2#4) := by decide
theorem test_decode_ldINnn : decodeWord 0b1010001100000001#16 = .ok (.ldINnn 0x301#12) := by decide
theorem test_decode_jpV0 : decodeWord 0b1011101010111100#16 = .ok (.jpV0 0xABC#12) := by decide
theorem test_decode_rnd : decodeWord 0b1100001100001111#16 = .ok (.rnd 0x3#4 0x0F#8) := by decide
theorem test_decode_drw : decodeWord 0b1101000100101111#16 = .ok (.drw 0x1#4 0x2#4 0xF#4) := by decide
theorem test_decode_skp : decodeWord 0b1110000110011110#16 = .ok (.skp 0x1#4) := by decide
theorem test_decode_sknp : decodeWord 0b1110001010100001#16 = .ok (.sknp 0x2#4) := by decide
theorem test_decode_ldVxDt : decodeWord 0b1111001100000111#16 = .ok (.ldVxDt 0x3#4) := by decide
theorem test_decode_ldVxK : decodeWord 0b1111001000001010#16 = .ok (.ldVxK 0x2#4) := by decide
theorem test_decode_ldDtVx : decodeWord 0b1111010000010101#16 = .ok (.ldDtVx 0x4#4) := by decide
theorem test_decode_ldStVx : decodeWord 0b1111010100011000#16 = .ok (.ldStVx 0x5#4) := by decide
theorem test_decode_addIVx : decodeWord 0b1111001000011110#16 = .ok (.addIVx 0x2#4) := by decide
theorem test_decode_ldFVx : decodeWord 0b1111011000101001#16 = .ok (.ldFVx 0x6#4) := by decide
theorem test_decode_ldBVx : decodeWord 0b1111101000110011#16 = .ok (.ldBVx 0xA#4) := by decide
theorem test_decode_ldMiVx : decodeWord 0b1111001001010101#16 = .ok (.ldMiVx 0x2#4) := by decide
theorem test_decode_ldVxMi : decodeWord 0b1111000101100101#16 = .ok (.ldVxMi 0x1#4) := by decide

/-! ## Ill-formed words: each check of R78 refuses one, and so do the map and the decoder (vectors of 2.1) -/

theorem test_badFamily0_refuses : badFamily0 0x0123#16 = true ∧ badFamily0 0x0000#16 = true := by decide
theorem test_badFamily59_refuses : badFamily59 0x5121#16 = true ∧ badFamily59 0x9121#16 = true := by decide
theorem test_badFamily8_refuses : badFamily8 0x8008#16 = true ∧ badFamily8 0x800F#16 = true := by decide
theorem test_badFamilyE_refuses : badFamilyE 0xE09F#16 = true := by decide
theorem test_badFamilyF_refuses : badFamilyF 0xF000#16 = true ∧ badFamilyF 0xF0FF#16 = true := by decide
theorem test_wordWellFormed_refuses :
    ([0x0000, 0x0123, 0x00E1, 0x5121, 0x9121, 0x8008, 0x800F, 0xE09F, 0xF000, 0xF0FF] : List Word).all
      (fun w => !wordWellFormed w) = true := by decide
theorem test_decode_illegal : decodeWord 0x00E1#16 = .error (.illegal 0x00E1#16) := by decide
theorem test_decode_truncated : decodeBytes [0x60#8] = .error .truncated := by decide
theorem test_decode_keeps_rest : decodeBytes [0x60#8, 0x12#8, 0xAA#8] = .ok (.ldVxNn 0x0#4 0x12#8, [0xAA#8]) := by decide
/-- A word whose checks pass at the edge of each illegal class (R78). -/
theorem test_wordIllegal_edges :
    wordIllegal 0x00E0#16 = false ∧ wordIllegal 0x5120#16 = false ∧ wordIllegal 0x800E#16 = false ∧
      wordIllegal 0xE09E#16 = false ∧ wordIllegal 0xF065#16 = false := by decide

/-! ## Fetch and the step (vectors V-F) -/

/-- V-F1. -/
theorem test_fetch_at_0xFFF :
    holds (step (atPc State.reset 0x0FFF))
      (fun t => t.fault == some ⟨.addressOutOfRange, 0x0FFF, none, some 0x1000⟩ && t.pc == 0x0FFF) = true := by decide
/-- V-F2. -/
theorem test_fetch_at_0x1000 :
    holds (step (atPc State.reset 0x1000))
      (fun t => t.fault == some ⟨.addressOutOfRange, 0x1000, none, some 0x1000⟩) = true := by decide
/-- V-F3. -/
theorem test_last_fetch_address :
    holds (run 0x1FFE (atPc State.reset 0x0FFE))
      (fun t => t.pc == 0x0FFE && t.fault == none) = true := by decide
/-- V-F4. -/
theorem test_odd_pc :
    holds (run 0x6055 (atPc State.reset 0x0201))
      (fun t => getV t 0x0 == 0x55 && t.pc == 0x0203) = true := by decide
/-- V-F5. -/
theorem test_halted :
    holds (run 0x6055 { State.reset with fault := latch .romWrite 0x0200 0xF055 (some 0), DT := 5, soundOut := true })
      (fun t => t.result == latch .romWrite 0x0200 0xF055 (some 0) && t.DT == 5 && t.soundOut == false && t.pc == 0x0200) = true := by decide
/-- V-F6. -/
theorem test_faulting_step_does_not_tick :
    holds (run 0x0000 { State.reset with DT := 5 })
      (fun t => t.fault == latch .illegalOpcode 0x0200 0x0000 (some 0) && t.DT == 5) = true := by decide
/-- V-K17 (an instruction that touches no timer, 3 ticks). -/
theorem test_ticks_over_the_edge :
    holds (stepWith 0x1200 3 0 { State.reset with ST := 2, DT := 1 })
      (fun t => t.DT == 0 && t.ST == 0 && t.soundOut) = true := by decide
/-- V-K18. -/
theorem test_ticks_no_edge :
    holds (run 0x1200 { State.reset with ST := 3 })
      (fun t => t.ST == 2 && !t.soundOut) = true := by decide
/-- The row interface: the first step after reset runs the word placed there, whatever the free turn is. -/
theorem test_first_step_from_reset :
    holds (step (State.reset.withFetchWord 16 0x6A7B)) (fun t => getV t 0xA == 0x7B && t.pc == 0x0202) = true := by decide
theorem test_decodeTableWord : decodeTableWord 16 0x8AB6 = some (.shr 0xA#4 0xB#4) := by decide

/-! ## Display (vectors V-D) -/

/-- W2, V-D14. -/
theorem test_cls :
    holds (run 0x00E0 (withPixel (regs [(0xF, 3)]) 5 7))
      (fun t => !pixel t.fb 5 7 && !pixel t.fb 0 0 && t.redraw && getV t 0xF == 3 && t.pc == 0x0202) = true := by decide
/-- V-D1. -/
theorem test_drw_glyph :
    holds (run 0xD015 State.reset)
      (fun t => rowStart t 5 0 == [true, true, true, true, false] && rowStart t 5 1 == [true, false, false, true, false] &&
        getV t 0xF == 0 && t.redraw && t.pc == 0x0202) = true := by decide
/-- V-D3 with (62, 0) already lit (R115). -/
theorem test_drw_clips_and_collides :
    holds (run 0xD011 (withPixel (withMem (withI (regs [(0x0, 62)]) 0x300) 0x300 [0xFF]) 62 0))
      (fun t => !pixel t.fb 62 0 && pixel t.fb 63 0 && !pixel t.fb 0 0 && !pixel t.fb 0 1 && getV t 0xF == 1) = true := by decide

/-! ## Control flow (vectors V-C) -/

/-- W3. -/
theorem test_ret :
    holds (run 0x00EE { State.reset with SP := 1, stack := State.reset.stack.set 0 0x0042 })
      (fun t => t.pc == 0x0044 && t.SP.val == 0 && t.stack[0] == 0x0042) = true := by decide
/-- V-C1. -/
theorem test_ret_underflow :
    holds (run 0x00EE State.reset)
      (fun t => t.fault == latch .stackUnderflow 0x0200 0x00EE none && t.SP.val == 0) = true := by decide
/-- W4. -/
theorem test_jp :
    holds (run 0x1666 State.reset)
      (fun t => t.pc == 0x0666) = true := by decide
/-- V-C4. -/
theorem test_call :
    holds (run 0x2300 (withStack State.reset 15))
      (fun t => t.stack[15] == 0x0200 && t.SP.val == 16 && t.pc == 0x0300 && t.stack[14] == 0x030E) = true := by decide
/-- V-C2. -/
theorem test_call_overflow :
    holds (run 0x2300 (withStack State.reset 16))
      (fun t => t.fault == latch .stackOverflow 0x0200 0x2300 none && t.SP.val == 16 && t.pc == 0x0200) = true := by decide
/-- R134: equal, so the skip is taken. -/
theorem test_seVxNn :
    holds (run 0x3101 (regs [(0x1, 0x01)]))
      (fun t => t.pc == 0x0204) = true := by decide
/-- V-C7. -/
theorem test_seVxNn_no_skip :
    holds (run 0x3100 (regs [(0x1, 0x01)]))
      (fun t => t.pc == 0x0202) = true := by decide
/-- V-C9. -/
theorem test_sneVxNn :
    holds (run 0x4205 (regs [(0x2, 0x06)]))
      (fun t => t.pc == 0x0204) = true := by decide
/-- V-C8. -/
theorem test_sneVxNn_no_skip :
    holds (run 0x4205 (regs [(0x2, 0x05)]))
      (fun t => t.pc == 0x0202) = true := by decide
/-- V-C10. -/
theorem test_seVxVy :
    holds (run 0x5340 (regs [(0x3, 0x10), (0x4, 0x10)]))
      (fun t => t.pc == 0x0204) = true := by decide
/-- V-C12. -/
theorem test_sneVxVy :
    holds (run 0x9120 (regs [(0x1, 0x01)]))
      (fun t => t.pc == 0x0204) = true := by decide
/-- V-C13. -/
theorem test_sneVxVy_same :
    holds (run 0x9110 (regs [(0x1, 0x01)]))
      (fun t => t.pc == 0x0202) = true := by decide
/-- V-C15. -/
theorem test_jpV0 :
    holds (run 0xBFFF (regs [(0x0, 0xFF)]))
      (fun t => t.pc == 0x10FE) = true := by decide
/-- V-C16. -/
theorem test_jpV0_always_v0 :
    holds (run 0xBA00 (regs [(0xA, 0x55)]))
      (fun t => t.pc == 0x0A00) = true := by decide

/-! ## ALU (vectors V-A) -/

/-- V-A2. -/
theorem test_ldVxNn :
    holds (run 0x6F12 State.reset)
      (fun t => getV t 0xF == 0x12 && t.pc == 0x0202) = true := by decide
/-- V-A4. -/
theorem test_addVxNn :
    holds (run 0x7101 (regs [(0x1, 0xFF), (0xF, 0x07)]))
      (fun t => getV t 0x1 == 0 && getV t 0xF == 0x07) = true := by decide
/-- V-A6. -/
theorem test_ldVxVy :
    holds (run 0x8120 (regs [(0x2, 0x33)]))
      (fun t => getV t 0x1 == 0x33 && getV t 0x2 == 0x33) = true := by decide
/-- V-A7. -/
theorem test_or :
    holds (run 0x8121 (regs [(0x1, 0xF0), (0x2, 0x0F), (0xF, 0x05)]))
      (fun t => getV t 0x1 == 0xFF && getV t 0xF == 0x05) = true := by decide
/-- V-A8. -/
theorem test_and :
    holds (run 0x8122 (regs [(0x1, 0xF0), (0x2, 0x3C)]))
      (fun t => getV t 0x1 == 0x30) = true := by decide
/-- R156, its example. -/
theorem test_xor :
    holds (run 0x8123 (regs [(0x1, 0xFF), (0x2, 0x0F)]))
      (fun t => getV t 0x1 == 0xF0) = true := by decide
/-- W5. -/
theorem test_addVxVy :
    holds (run 0x8124 (regs [(0x1, 0xFF), (0x2, 0x01)]))
      (fun t => getV t 0x1 == 0 && getV t 0xF == 1) = true := by decide
/-- V-A15. -/
theorem test_addVxVy_x_is_f :
    holds (run 0x8FE4 (regs [(0xF, 0x01), (0xE, 0xFF)]))
      (fun t => getV t 0xF == 0) = true := by decide
/-- W6. -/
theorem test_sub :
    holds (run 0x8125 (regs [(0x1, 0x01), (0x2, 0x02), (0xF, 1)]))
      (fun t => getV t 0x1 == 0xFF && getV t 0xF == 0) = true := by decide
/-- V-A16. -/
theorem test_sub_equal :
    holds (run 0x8125 (regs [(0x1, 0x05), (0x2, 0x05)]))
      (fun t => getV t 0x1 == 0 && getV t 0xF == 1) = true := by decide
/-- V-A19 with V2 = 0xFF (V-A21: Y is ignored). -/
theorem test_shr :
    holds (run 0x8126 (regs [(0x1, 0x03), (0x2, 0xFF)]))
      (fun t => getV t 0x1 == 0x01 && getV t 0xF == 1) = true := by decide
/-- V-A22. -/
theorem test_shr_x_is_f :
    holds (run 0x8F06 (regs [(0xF, 0x03)]))
      (fun t => getV t 0xF == 0x01) = true := by decide
/-- V-A25. -/
theorem test_subn :
    holds (run 0x8127 (regs [(0x1, 0x01), (0x2, 0x03)]))
      (fun t => getV t 0x1 == 0x02 && getV t 0xF == 1) = true := by decide
/-- V-A23. -/
theorem test_subn_borrow :
    holds (run 0x8127 (regs [(0x1, 0x02), (0x2, 0x01)]))
      (fun t => getV t 0x1 == 0xFF && getV t 0xF == 0) = true := by decide
/-- V-A28. -/
theorem test_shl :
    holds (run 0x812E (regs [(0x1, 0xFF)]))
      (fun t => getV t 0x1 == 0xFE && getV t 0xF == 1 && getV t 0x2 == 0) = true := by decide
/-- V-A30. -/
theorem test_shl_x_is_f :
    holds (run 0x8F0E (regs [(0xF, 0x81)]))
      (fun t => getV t 0xF == 0x02) = true := by decide
/-- V-A31. -/
theorem test_rnd :
    holds (stepWith 0xC30F 1 0xAB State.reset)
      (fun t => getV t 0x3 == 0x0B) = true := by decide

/-! ## Index and memory (vectors V-M) -/

/-- V-M2. -/
theorem test_ldINnn :
    holds (run 0xAFFF State.reset)
      (fun t => t.I == 0x0FFF) = true := by decide
/-- V-M4. -/
theorem test_addIVx_no_12_bit_wrap :
    holds (run 0xF11E (withI (regs [(0x1, 0x01)]) 0x0FFF))
      (fun t => t.I == 0x1000 && getV t 0xF == 0) = true := by decide
/-- V-M5. -/
theorem test_addIVx_16_bit_wrap :
    holds (run 0xF11E (withI (regs [(0x1, 0x01)]) 0xFFFF))
      (fun t => t.I == 0x0000) = true := by decide
/-- V-M6. -/
theorem test_ldFVx :
    holds (run 0xF029 (regs [(0x0, 0x05)]))
      (fun t => t.I == 0x0019) = true := by decide
/-- V-M8. -/
theorem test_ldFVx_unmasked :
    holds (run 0xF129 (regs [(0x1, 0x1A)]))
      (fun t => t.I == 0x0082) = true := by decide
/-- V-M10. -/
theorem test_ldBVx :
    holds (run 0xFA33 (withI (regs [(0xA, 0x7B)]) 0x0300))
      (fun t => t.mem.readBytes t.font 0x300 3 == [1, 2, 3] && t.I == 0x0300) = true := by decide
/-- V-M14. -/
theorem test_ldBVx_rom :
    holds (run 0xF133 (withI (regs [(0x1, 0x0A)]) 0x004E))
      (fun t => t.fault == latch .romWrite 0x0200 0xF133 (some 0x4E) && byteAt t 0x4E == t.font[0x4E]) = true := by decide
/-- V-M22, with the byte past the store kept. -/
theorem test_ldMiVx :
    holds (run 0xF255 (withMem (withI (regs [(0x0, 1), (0x1, 2), (0x2, 3), (0x3, 9)]) 0x0400) 0x403 [0x77]))
      (fun t => t.mem.readBytes t.font 0x400 4 == [1, 2, 3, 0x77] && t.I == 0x0400) = true := by decide
/-- V-M18. -/
theorem test_ldMiVx_out_of_range :
    holds (run 0xF155 (withI (regs [(0x0, 1), (0x1, 2)]) 0x0FFF))
      (fun t => t.fault == latch .addressOutOfRange 0x0200 0xF155 (some 0x1000) && byteAt t 0xFFF == 0) = true := by decide
/-- V-M20. -/
theorem test_ldVxMi_font :
    holds (run 0xFF65 State.reset)
      (fun t => t.V.toList == [0xF0, 0x90, 0x90, 0x90, 0xF0, 0x20, 0x60, 0x20, 0x20, 0x70, 0xF0, 0x10, 0xF0, 0x80, 0xF0, 0xF0]) = true := by decide
/-- R55, D11: a machine constructed with another font reads that font. -/
theorem test_other_font :
    holds (run 0xF165 (State.construct (Vector.replicate 80 0xA5)))
      (fun t => getV t 0x0 == 0xA5 && getV t 0x1 == 0xA5 && byteAt t 79 == 0xA5 && byteAt t 80 == 0) = true := by decide
/-- R185 (V[X+1] is kept). -/
theorem test_ldVxMi_stops_at_x :
    holds (run 0xF165 (withMem (withI (regs [(0x2, 9)]) 0x0400) 0x400 [7, 8, 6]))
      (fun t => getV t 0x0 == 7 && getV t 0x1 == 8 && getV t 0x2 == 9) = true := by decide

/-! ## Keypad and timers (vectors V-K) -/

/-- V-K1. -/
theorem test_skp :
    holds (run 0xE19E (withKeys (regs [(0x1, 0x07)]) [7]))
      (fun t => t.pc == 0x0204) = true := by decide
/-- V-K5. -/
theorem test_skp_key_index :
    holds (run 0xE19E (regs [(0x1, 0x10)]))
      (fun t => t.fault == latch .keyIndexOutOfRange 0x0200 0xE19E (some 0x10)) = true := by decide
/-- V-K3. -/
theorem test_sknp :
    holds (run 0xE1A1 (regs [(0x1, 0x07)]))
      (fun t => t.pc == 0x0204) = true := by decide
/-- V-K4. -/
theorem test_sknp_pressed :
    holds (run 0xE1A1 (withKeys (regs [(0x1, 0x07)]) [7]))
      (fun t => t.pc == 0x0202) = true := by decide
/-- V-K10. -/
theorem test_ldVxDt :
    holds (run 0xF307 { State.reset with DT := 0x20 })
      (fun t => getV t 0x3 == 0x20 && t.DT == 0x1F) = true := by decide
/-- V-K7. -/
theorem test_ldVxK_waits :
    holds (run 0xF20A { State.reset with DT := 3 })
      (fun t => t.pc == 0x0200 && getV t 0x2 == 0 && t.DT == 2) = true := by decide
/-- V-K8. -/
theorem test_ldVxK_lowest :
    holds (run 0xF20A (withKeys State.reset [9, 7]))
      (fun t => getV t 0x2 == 0x07 && t.pc == 0x0202) = true := by decide
/-- V-K11. -/
theorem test_ldDtVx :
    holds (run 0xF015 (regs [(0x0, 0x03)]))
      (fun t => t.DT == 0x02) = true := by decide
/-- V-K14. -/
theorem test_ldStVx :
    holds (run 0xF018 (regs [(0x0, 0x01)]))
      (fun t => t.ST == 0 && t.soundOut) = true := by decide
/-- V-K16. -/
theorem test_ldStVx_write_is_no_edge :
    holds (run 0xF018 { State.reset with ST := 1 })
      (fun t => t.ST == 0 && !t.soundOut) = true := by decide

/-! ## The host's interface (vectors of 2.8) -/

/-- V-LOAD1, V-LOAD2: 3584 bytes are accepted and 3585 are not. -/
theorem test_load_capacity (s : State) :
    (∃ t, load (List.replicate 3584 1) s = .ok t) ∧
      load (List.replicate 3585 1) s = .error .loadCapacityExceeded := by
  constructor
  · simp only [load, List.length_replicate]; exact ⟨_, rfl⟩
  · simp only [load, List.length_replicate]; rfl
/-- V-LOAD3. -/
theorem test_load_nothing (s : State) : load [] s = .ok s := by simp [load, storeBytes, Memory.writeBytes]
/-- V-KEY1. -/
theorem test_setKey : setKey 15 true State.reset = .ok (withKeys State.reset [15]) := by rfl
/-- V-KEY2. -/
theorem test_setKey_invalid : setKey 16 true State.reset = .error .keyIndexInvalid := by rfl
/-- V-RD1. -/
theorem test_clearRedraw :
    clearRedraw { withPixel State.reset 5 7 with redraw := true } = withPixel State.reset 5 7 := by rfl
/-- The index of the host's linear view (R117). -/
theorem test_hostView : (hostView (withPixel State.reset 5 2))[2 * 64 + 5]? = some true := by decide
/-- A turn: two writes of one key, the last one remaining; redraw cleared; the inputs sampled (R100, R245, R246). -/
theorem test_turn :
    (let t := takeTurn { State.reset with redraw := true, turns := [⟨[(3, true), (4, true), (3, false), (16, true)], true, 2, 0x5A⟩] }
     keyDown t 0x3 = false ∧ keyDown t 0x4 = true ∧ t.redraw = false ∧ t.ticks = 2 ∧ t.rnd = 0x5A) := by decide


/-! ## Witnesses: the hypotheses of each statement can be met, each clause at a boundary of its range -/

open Sys2Proof.Frame

/-- A running state with `w` at the pc `p`, and one decided turn. -/
def ready (w p : Word) (s : State) : State :=
  { (atPc s p).withFetchWord 16 w.toNat with turns := [⟨[(7, true)], false, 1, 0⟩] }

/-- A halted state. -/
def halted : State := { State.reset with fault := latch .illegalOpcode 0x0202 0x0000 (some 0), DT := 5 }

theorem witness_EncodeOfDecodedIsWord : decodeWord 0x8AB6#16 = .ok (.shr 0xA#4 0xB#4) := by decide

theorem witness_WordIsInstructionOfMatchedRow :
    decodeWord 0xF265#16 = .ok (.ldVxMi 0x2#4) ∧
      (⟨"LD_VX_MI", 0xF0FF#16, 0xF065#16⟩ : OpcodeRow) ∈ opcodeRows ∧ 0xF265#16 &&& 0xF0FF#16 = 0xF065#16 := by decide

theorem witness_NoWordMatchesTwoRows :
    rowOf .ret ∈ opcodeRows ∧ (rowOf .ret).matchesWord 0x00EE#16 = true := by decide

theorem witness_IllegalWordsRaiseIllegalOpcode :
    wordIllegal 0x8ABF#16 = true ∧ decodeWord 0x8ABE#16 = .ok (.shl 0xA#4 0xB#4) ∧
      (ready 0x8ABF 0x0FFE State.reset).fault = none ∧ fetch (ready 0x8ABF 0x0FFE State.reset) = .ok 0x8ABF#16 :=
  ⟨by decide, by decide, by decide, by rfl⟩

theorem witness_FetchIsBigEndianAndRangeChecked :
    ((atPc State.reset 0x0FFE).pc.toNat + 1 < 4096) ∧
      ((atPc State.reset 0x1000).fault = none ∧ 4096 ≤ (atPc State.reset 0x1000).pc.toNat) ∧
      ((atPc State.reset 0x0FFF).fault = none ∧ (atPc State.reset 0x0FFF).pc.toNat = 0xFFF) := by decide

/-- An instruction that raises no fault and one that does. -/
theorem witness_StepRunsDecodedInstruction :
    (let s := ready 0x6A7B 0x0FFE State.reset
     s.fault = none ∧ s.pc.toNat + 1 < 4096 ∧
       decodeBytes [byteAt s s.pc.toNat, byteAt s (s.pc.toNat + 1)] = .ok (.ldVxNn 0xA#4 0x7B#8, []) ∧
       ∃ t, exec (.ldVxNn 0xA#4 0x7B#8) (quiet (takeTurn s)) = .next t ∧ t.fault = none) ∧
    (let s := ready 0x00EE 0x0200 State.reset
     s.fault = none ∧ s.pc.toNat + 1 < 4096 ∧
       decodeBytes [byteAt s s.pc.toNat, byteAt s (s.pc.toNat + 1)] = .ok (.ret, []) ∧
       ∃ t, exec .ret (quiet (takeTurn s)) = .next t ∧ t.fault ≠ none) :=
  ⟨⟨by decide, by decide, by decide, _, rfl, by decide⟩, ⟨by decide, by decide, by decide, _, rfl, by decide⟩⟩

theorem witness_HaltedCycleChangesNothing :
    halted.fault = latch .illegalOpcode 0x0202 0x0000 (some 0) ∧ ∃ t, cycle halted = .next t := ⟨by decide, _, rfl⟩

/-- A fetch fault and an instruction's fault. -/
theorem witness_FaultingCycleChangesOnlyLatch :
    (let s := atPc State.reset 0x0FFF
     s.fault = none ∧ fetch s = .error 0x1000 ∧
       ∃ t r, cycle s = .next t ∧ t.fault = some r) ∧
    (let s := ready 0x00EE 0x0200 State.reset
     s.fault = none ∧ fetch s = .ok 0x00EE#16 ∧ ∃ t r, cycle s = .next t ∧ t.fault = some r) :=
  ⟨⟨by decide, by rfl, _, _, rfl, rfl⟩, ⟨by decide, by rfl, _, _, rfl, rfl⟩⟩

theorem witness_TickCountsDown :
    (let t : TimerBlock := ⟨1, 1, false⟩
     0 < t.DT.toNat ∧ 0 < t.ST.toNat ∧ t.edge = false) ∧
    (let t : TimerBlock := ⟨0, 0, false⟩
     t.DT.toNat = 0 ∧ t.ST.toNat = 0) := by decide

theorem witness_TimerPhaseAppliesTicks :
    ∃ t, exec (.jp 0x200#12) { State.reset with ST := 2, DT := 1, ticks := 3 } = .next t ∧ t.fault = none ∧
      (1 ≤ t.ST.toNat ∧ t.ST.toNat ≤ t.ticks) := ⟨_, rfl, by decide, by decide⟩

/-- The default font and another one, and both ends of each range. -/
theorem witness_ResetLeavesConstructionState :
    (State.reset = State.construct defaultFont) ∧
      (∃ s font, s = State.construct font ∧ s.font ≠ defaultFont) ∧ (79 < 80) ∧ (80 ≤ 4095 ∧ 4095 < 4096) ∧
      (63 < 64 ∧ 31 < 32) ∧ 15 < 16 :=
  ⟨rfl, ⟨_, Vector.replicate 80 0, rfl, by decide⟩, by decide, by decide, by decide, by decide⟩

theorem witness_LoadCopiesImage :
    (List.replicate 3584 (1 : Byte)).length ≤ 3584 ∧ 3584 < (List.replicate 3585 (1 : Byte)).length := by
  simp only [List.length_replicate]; decide

theorem witness_HostTurnReachesOnlyItsPorts :
    (15 < 16) ∧ (15 ≤ 15) ∧
      (ready 0x6A7B 0x0200 State.reset).turns = [⟨[(7, true)], false, 1, 0⟩] := by decide

/-- A state with a stored byte, a stack slot in use, and a pc at the upper end of what can be fetched. -/
def busy : State := ready 0x2300 0x0FFE { withMem (withStack State.reset 15) 0x0050 [0x55] with fault := none }

theorem busy_inv : Inv busy := by
  refine ⟨by decide, ?_, by decide, ?_⟩
  · have h : ∀ a : Fin 80, byteAt busy a = busy.font[a.val]'a.isLt := by decide
    exact fun a ha => h ⟨a, ha⟩
  · have h : ∀ k : Fin 16, k.val < busy.SP.val → (busy.stack[k.val]'k.isLt).toNat ≤ 0xFFE := by decide
    exact fun k hk => h ⟨k, hk⟩

theorem witness_StepKeepsInvariant : Inv busy ∧ ∃ t, step busy = .next t := ⟨busy_inv, _, rfl⟩

/-- A loaded machine, and one that has run a step. -/
theorem witness_ReachableStatesHaveInvariant :
    ∃ s t, Reachable s ∧ step s = .next t ∧ Reachable t ∧ getV t 0xA = 0x7B := by
  have h : Reachable { withMem State.reset 0x200 [0x6A, 0x7B] with turns := [⟨[], false, 1, 0⟩] } :=
    .boot defaultFont [0x6A, 0x7B] [⟨[], false, 1, 0⟩] _ rfl
  exact ⟨_, _, h, rfl, .step _ _ h rfl, by decide⟩

theorem witness_LatchedFaultFreezesMachine : halted.fault = latch .illegalOpcode 0x0202 0x0000 (some 0) := by decide

theorem witness_RegistersChangeOnlyAsTabled :
    ∃ t, exec (.addVxVy 0x1 0x2) (regs [(0x1, 0xFF), (0x2, 0x01)]) = .next t ∧
      getV t 0x1 ≠ getV (regs [(0x1, 0xFF), (0x2, 0x01)]) 0x1 ∧
      getV t 0xF ≠ getV (regs [(0x1, 0xFF), (0x2, 0x01)]) 0xF := ⟨_, rfl, by decide, by decide⟩

theorem witness_StateChangesOnlyByNamedInstructions :
    (∃ t, exec (.ldINnn 0x300) State.reset = .next t ∧ t.I ≠ State.reset.I) ∧
    (∃ t, exec (.call 0x300) State.reset = .next t ∧ t.stack ≠ State.reset.stack ∧ t.SP ≠ State.reset.SP) ∧
    (∃ t, exec .ret (withStack State.reset 16) = .next t ∧ t.SP ≠ (withStack State.reset 16).SP) ∧
    (∃ t, exec (.ldDtVx 0x1) (regs [(0x1, 1)]) = .next t ∧ t.DT ≠ (regs [(0x1, 1)]).DT) ∧
    (∃ t, exec (.ldStVx 0x1) (regs [(0x1, 1)]) = .next t ∧ t.ST ≠ (regs [(0x1, 1)]).ST) ∧
    (∃ t, exec .cls (withPixel State.reset 63 31) = .next t ∧ t.fb ≠ (withPixel State.reset 63 31).fb ∧
      t.redraw ≠ (withPixel State.reset 63 31).redraw) ∧
    (∃ t, exec (.ldMiVx 0x0) (withI (regs [(0x0, 1)]) 0x0FFF) = .next t ∧
      byteAt t 0xFFF ≠ byteAt (withI (regs [(0x0, 1)]) 0x0FFF) 0xFFF) := by
  refine ⟨⟨_, rfl, by decide⟩, ⟨_, rfl, by decide, by decide⟩, ⟨_, rfl, by decide⟩, ⟨_, rfl, by decide⟩,
    ⟨_, rfl, by decide⟩, ⟨_, rfl, fun h => ?_, by decide⟩, ⟨_, rfl, by decide⟩⟩
  have : pixel clearScreen 63 31 = pixel (withPixel State.reset 63 31).fb 63 31 := congrArg (pixel · 63 31) h
  exact absurd this (by decide)

/-- An instruction that raises no fault and one that raises one. -/
theorem witness_PcEffectOfEveryInstruction :
    (∃ t, exec (.jpV0 0xFFF) (regs [(0x0, 0xFF)]) = .next t ∧ t.fault = none) ∧
      (∃ t, exec (.call 0x300) (withStack State.reset 16) = .next t ∧ t.fault ≠ none) ∧ State.reset.fault = none :=
  ⟨⟨_, rfl, by decide⟩, ⟨_, rfl, by decide⟩, by decide⟩

/-- A latched record; and every row of the table of faults, at a boundary of its condition. -/
theorem witness_FaultsRaisedOnlyAsTabled :
    (∃ t r, exec (.ldMiVx 0x1) (withI State.reset 0x004F) = .next t ∧ t.fault = some r) ∧
    RaisedAs (withStack State.reset 16) (.call 0x300) .stackOverflow none ∧
    RaisedAs State.reset .ret .stackUnderflow none ∧
    RaisedAs (regs [(0x1, 16)]) (.skp 0x1) .keyIndexOutOfRange (some 16) ∧
    RaisedAs (regs [(0x1, 0xFF)]) (.sknp 0x1) .keyIndexOutOfRange (some 0xFF) ∧
    RaisedAs (withI State.reset 0x0FFF) (.drw 0x0 0x1 0x2) .addressOutOfRange (some 0x1000) ∧
    RaisedAs (withI State.reset 0xFFFF) (.ldVxMi 0x0) .addressOutOfRange (some 0xFFFF) ∧
    RaisedAs (withI State.reset 0x0FFE) (.ldBVx 0x1) .addressOutOfRange (some 0x1000) ∧
    RaisedAs (withI State.reset 0x0FF1) (.ldMiVx 0xF) .addressOutOfRange (some 0x1000) ∧
    RaisedAs (withI State.reset 0x004F) (.ldBVx 0x1) .romWrite (some 0x4F) ∧
    RaisedAs (withI State.reset 0x0000) (.ldMiVx 0x0) .romWrite (some 0) := by
  refine ⟨⟨_, _, rfl, rfl⟩, ?_⟩
  simp only [RaisedAs]
  decide

/-- The two ends of where a store runs, for the digits and for all sixteen registers. -/
theorem witness_StoreDecimalDigits :
    (0x050 ≤ (withI State.reset 0x0050).I.toNat ∧ (withI State.reset 0x0050).I.toNat + 3 ≤ 4096) ∧
      (0x050 ≤ (withI State.reset 0x0FFD).I.toNat ∧ (withI State.reset 0x0FFD).I.toNat + 3 ≤ 4096) := by decide

theorem witness_StoreRegisters :
    (0x050 ≤ (withI State.reset 0x0050).I.toNat ∧ (withI State.reset 0x0050).I.toNat + (0x0#4).toNat + 1 ≤ 4096) ∧
      (0x050 ≤ (withI State.reset 0x0FF0).I.toNat ∧ (withI State.reset 0x0FF0).I.toNat + (0xF#4).toNat + 1 ≤ 4096) := by
  decide

theorem witness_LoadRegisters :
    (withI State.reset 0x0FF0).I.toNat + (0xF#4).toNat + 1 ≤ 4096 ∧
      (withI State.reset 0x0FFF).I.toNat + (0x0#4).toNat + 1 ≤ 4096 := by decide

theorem witness_StoresTrapOnLowestBadAddress :
    4096 < (withI State.reset 0x0FFE).I.toNat + 3 ∧ (withI State.reset 0x004F).I.toNat ≤ 0x04F ∧
      4096 < (withI State.reset 0x0FFF).I.toNat + (0x1#4).toNat + 1 ∧
      4096 < (withI State.reset 0xFFFF).I.toNat + (0x0#4).toNat + 1 := by decide

theorem witness_ReadsTrapOnLowestBadAddress :
    4096 < (withI State.reset 0x0FF1).I.toNat + (0xF#4).toNat + 1 ∧
      (0 < (0xF#4).toNat ∧ 4096 < (withI State.reset 0x0FF2).I.toNat + (0xF#4).toNat) := by decide

/-- W9. -/
theorem witness_StoreThenLoadRestoresRegisters :
    (let s := withI (regs [(0x0, 0x11), (0x1, 0x22), (0x2, 0x33), (0x3, 0x44)]) 0x0400
     0x050 ≤ s.I.toNat ∧ s.I.toNat + (0x3#4).toNat + 1 ≤ 4096 ∧
       ∃ t u, exec (.ldMiVx 0x3) s = .next t ∧ SameBytes t u ∧ u.I = t.I ∧ getV u 0x1 ≠ getV s 0x1) :=
  ⟨by decide, by decide, _, setV _ 0x1 0, rfl, fun _ => rfl, rfl, by decide⟩

/-- Q7 (the store is at 0x208, right where the pc then points); a store over the second byte alone, at the last pc. -/
theorem witness_StoredWordIsFetchedNext :
    (let s := atPc (withI State.reset 0x0208) 0x0206
     0x050 ≤ s.I.toNat ∧ s.pc.toNat + 3 < 4096 ∧ s.I.toNat + 3 ≤ 4096 ∧ s.I.toNat + (0x1#4).toNat + 1 ≤ 4096) ∧
    (let s := atPc (withI State.reset 0x0FFF) 0x0FFC
     0x050 ≤ s.I.toNat ∧ s.pc.toNat + 3 < 4096 ∧ s.I.toNat + (0x0#4).toNat + 1 ≤ 4096) ∧
    (let s := atPc (withI State.reset 0x0050) 0x004E
     0x050 ≤ s.I.toNat ∧ s.pc.toNat + 3 < 4096 ∧ s.I.toNat + 3 ≤ 4096) := by decide

/-- N = 0 at any I, and the last sprite in memory; a draw that collides and one that does not. -/
theorem witness_DrawXorsSpriteAndReportsCollision :
    ((0x0#4).toNat = 0 ∨ (withI State.reset 0xFFFF).I.toNat + (0x0#4).toNat ≤ 4096) ∧
    ((0xF#4).toNat = 0 ∨ (withI State.reset 0x0FF1).I.toNat + (0xF#4).toNat ≤ 4096) ∧
    Collides (withPixel (regs []) 0 0) 0x0 0x1 0x5 ∧ ¬ Collides (regs []) 0x0 0x1 0x5 := by
  refine ⟨by decide, by decide, ⟨0, 0, by decide, by decide, by decide, by decide⟩, ?_⟩
  rintro ⟨px, py, -, -, -, h⟩
  have : pixel (regs []).fb px py = false := pixel_clearScreen px py
  rw [this] at h; cases h

theorem witness_DrawTwiceRestoresScreen :
    (0x1#4 ≠ 0xF#4) ∧ (0x2#4 ≠ 0xF#4) ∧ ((0x5#4).toNat = 0 ∨ (withI State.reset 0x0019).I.toNat + (0x5#4).toNat ≤ 4096) ∧
      ∃ t, exec (.drw 0x1 0x2 0x5) (withI State.reset 0x0019) = .next t := ⟨by decide, by decide, by decide, _, rfl⟩

theorem witness_JumpAbsolute : (0xFFF#12).toNat = 0xFFF ∧ (0xFFE#12).toNat ≠ 0xFFF := by decide

theorem witness_JumpWithOffset :
    ∃ t, exec (.jpV0 0xFFF) (regs [(0x0, 0x00)]) = .next t ∧ 0xFFF ≤ t.pc.toNat := ⟨_, rfl, by decide⟩

theorem witness_CallPushesOwnAddress :
    (withStack State.reset 15).SP.val < 16 ∧ (withStack State.reset 16).SP.val = 16 := by decide

theorem witness_ReturnPopsAndAddsTwo :
    (withStack State.reset 16).SP.val = 15 + 1 ∧ (withStack State.reset 1).SP.val = 0 + 1 ∧ State.reset.SP.val = 0 := by
  decide

theorem witness_ReturnResumesAfterCall :
    (withStack State.reset 15).SP.val < 16 ∧
      ∃ (t u : State), exec (.call 0x300) (withStack State.reset 15) = .next t ∧ u.stack = t.stack ∧ u.SP = t.SP ∧ u.I ≠ t.I :=
  ⟨by decide, _, withI _ 0x0777, rfl, rfl, rfl, by decide⟩

/-- The highest pc of a step, and the lowest pc from which a skip leaves what can be fetched. -/
theorem witness_SkipOnImmediate :
    (let s := atPc (regs [(0x1, 0x05)]) 0x0FFB
     getV s 0x1 = 0x05 ∧ s.pc.toNat ≤ 0xFFE ∧ 0xFFF ≤ s.pc.toNat + 4) ∧
    (let s := atPc (regs [(0x1, 0x05)]) 0x0FFE
     getV s 0x1 ≠ 0x06 ∧ s.pc.toNat ≤ 0xFFE ∧ 0xFFF ≤ s.pc.toNat + 4) := by decide

theorem witness_SkipOnRegisters : (0xF#4) ≠ 0 := by decide

theorem witness_SkipOnKey :
    (getV (regs [(0x1, 15)]) 0x1).toNat = (0xF#4).toNat ∧ 15 < (getV (regs [(0x1, 16)]) 0x1).toNat := by decide

/-- Keys 15 and 9 pressed, the lowest being 9; and no key pressed. -/
theorem witness_WaitForLowestKey :
    (keyDown (withKeys State.reset [15, 9]) 0x9 = true ∧
      ∀ j : Nibble, j.toNat < (0x9#4).toNat → keyDown (withKeys State.reset [15, 9]) j = false) ∧
    (∀ k : Nibble, keyDown State.reset k = false) := by decide

theorem witness_ReadDelayTimer :
    (ready 0xF307 0x0FFE State.reset).fault = none ∧
      fetch (ready 0xF307 0x0FFE State.reset) = .ok (encode (.ldVxDt 0x3)) := ⟨by decide, by rfl⟩

theorem witness_SetDelayTimer :
    (ready 0xF015 0x0200 State.reset).fault = none ∧
      fetch (ready 0xF015 0x0200 State.reset) = .ok (encode (.ldDtVx 0x0)) := ⟨by decide, by rfl⟩

theorem witness_SetSoundTimer :
    (let s := { ready 0xF018 0x0200 (regs [(0x0, 1)]) with ticks := 1 }
     s.fault = none ∧ fetch s = .ok (encode (.ldStVx 0x0)) ∧
       1 ≤ (getV s 0x0).toNat ∧ (getV s 0x0).toNat ≤ s.ticks) := ⟨by decide, by rfl, by decide, by decide⟩

/-- X other than 0xF, which the flag clauses of the ALU statements ask for. -/
theorem witness_AluFlagClauses : (0xE#4) ≠ 0xF#4 := by decide

end Sys2Proof.Tests
end

