-- ==== Sys2Proof/Proofs/OpcodeMap.lean ====
section
/-! SUPPORT. The decoder against the opcode map of spec/30_encoding.md R75. One direction goes through the encoder: a
decoded word is the word of its instruction, which matches its own row (`Laws.EncodesItsRow`). The other goes through the
match value of a row: the row a word decodes to depends only on the bits the mask keeps, and the value decodes to its row. -/

namespace Sys2Proof.Proofs

open Laws

/-! A decoded word is the word of its instruction (R76), family by family as R74 keys them. -/

theorem encode_of_decodeFamily0 {w : Word} {i : Instr} (h : decodeFamily0 w = some i) : encode i = w := by
  unfold decodeFamily0 at h
  split_ifs at h with hcls hret
  · cases h; exact hcls.symm
  · cases h; exact hret.symm

theorem encode_of_decodeFamily5 {x y n : Nibble} {i : Instr} (h : decodeFamily5 x y n = some i) :
    encode i = wordXYN 0x5#4 x y n := by
  unfold decodeFamily5 at h
  split_ifs at h with hn
  cases h; subst hn; rfl

theorem encode_of_decodeFamily8 {x y n : Nibble} {i : Instr} (h : decodeFamily8 x y n = some i) :
    encode i = wordXYN 0x8#4 x y n := by
  unfold decodeFamily8 at h
  split at h <;> cases h <;> rfl

theorem encode_of_decodeFamily9 {x y n : Nibble} {i : Instr} (h : decodeFamily9 x y n = some i) :
    encode i = wordXYN 0x9#4 x y n := by
  unfold decodeFamily9 at h
  split_ifs at h with hn
  cases h; subst hn; rfl

theorem encode_of_decodeFamilyE {x : Nibble} {nn : Byte} {i : Instr} (h : decodeFamilyE x nn = some i) :
    encode i = wordXNN 0xE#4 x nn := by
  unfold decodeFamilyE at h
  split at h <;> cases h <;> rfl

theorem encode_of_decodeFamilyF {x : Nibble} {nn : Byte} {i : Instr} (h : decodeFamilyF x nn = some i) :
    encode i = wordXNN 0xF#4 x nn := by
  unfold decodeFamilyF at h
  split at h <;> cases h <;> rfl

/-- R76. Each family's word is put together from the fields of `w`, in the family's shape. Case `h_k` is the `k`-th arm of
`decodeRow`: `h_1` to `h_16` are the families 0 to F. -/
theorem encode_of_decodeRow {w : Word} {i : Instr} (h : decodeRow w = some i) : encode i = w := by
  have hNNN := wordNNN_fields w
  have hXNN := wordXNN_fields w
  have hXYN := wordXYN_fields w
  unfold decodeRow at h
  split at h
  case h_17 => cases h
  all_goals rename_i hop; rw [hop] at hNNN hXNN hXYN
  case h_1 => exact encode_of_decodeFamily0 h
  case h_6 => exact (encode_of_decodeFamily5 h).trans hXYN
  case h_9 => exact (encode_of_decodeFamily8 h).trans hXYN
  case h_10 => exact (encode_of_decodeFamily9 h).trans hXYN
  case h_15 => exact (encode_of_decodeFamilyE h).trans hXNN
  case h_16 => exact (encode_of_decodeFamilyF h).trans hXNN
  case h_2 | h_3 | h_11 | h_12 => cases h; exact hNNN
  case h_4 | h_5 | h_7 | h_8 | h_13 => cases h; exact hXNN
  case h_14 => cases h; exact hXYN

/-- The per-instruction family EncodesItsRow, for every instruction. -/
theorem encodesItsRow : ∀ i : Instr, EncodesItsRow.Statement i
  | .cls => EncodesItsRow.cls
  | .ret => EncodesItsRow.ret
  | .jp nnn => EncodesItsRow.jp nnn
  | .call nnn => EncodesItsRow.call nnn
  | .seVxNn x nn => EncodesItsRow.seVxNn x nn
  | .sneVxNn x nn => EncodesItsRow.sneVxNn x nn
  | .seVxVy x y => EncodesItsRow.seVxVy x y
  | .ldVxNn x nn => EncodesItsRow.ldVxNn x nn
  | .addVxNn x nn => EncodesItsRow.addVxNn x nn
  | .ldVxVy x y => EncodesItsRow.ldVxVy x y
  | .or x y => EncodesItsRow.or x y
  | .and x y => EncodesItsRow.and x y
  | .xor x y => EncodesItsRow.xor x y
  | .addVxVy x y => EncodesItsRow.addVxVy x y
  | .sub x y => EncodesItsRow.sub x y
  | .shr x y => EncodesItsRow.shr x y
  | .subn x y => EncodesItsRow.subn x y
  | .shl x y => EncodesItsRow.shl x y
  | .sneVxVy x y => EncodesItsRow.sneVxVy x y
  | .ldINnn nnn => EncodesItsRow.ldINnn nnn
  | .jpV0 nnn => EncodesItsRow.jpV0 nnn
  | .rnd x nn => EncodesItsRow.rnd x nn
  | .drw x y n => EncodesItsRow.drw x y n
  | .skp x => EncodesItsRow.skp x
  | .sknp x => EncodesItsRow.sknp x
  | .ldVxDt x => EncodesItsRow.ldVxDt x
  | .ldVxK x => EncodesItsRow.ldVxK x
  | .ldDtVx x => EncodesItsRow.ldDtVx x
  | .ldStVx x => EncodesItsRow.ldStVx x
  | .addIVx x => EncodesItsRow.addIVx x
  | .ldFVx x => EncodesItsRow.ldFVx x
  | .ldBVx x => EncodesItsRow.ldBVx x
  | .ldMiVx x => EncodesItsRow.ldMiVx x
  | .ldVxMi x => EncodesItsRow.ldVxMi x

theorem matchesWord_iff (r : OpcodeRow) (w : Word) : r.matchesWord w = true ↔ w &&& r.mask = r.value := by
  simp [OpcodeRow.matchesWord]

/-- A masked word agrees with its match value on every field that the mask keeps whole. -/
theorem extractLsb'_of_masked {w m v : Word} {start len : Nat} (h : w &&& m = v)
    (hm : m.extractLsb' start len = BitVec.allOnes len) : w.extractLsb' start len = v.extractLsb' start len := by
  rw [← h, BitVec.extractLsb'_and, hm, BitVec.and_allOnes]

/-! The row of a decoded word depends only on what R74 keys its family by. -/

/-- The row of the instruction that `w` decodes to, if it decodes to one. -/
def decodedRow (w : Word) : Option OpcodeRow := (decodeRow w).map rowOf

theorem decodedRow_eq_some {w : Word} {r : OpcodeRow} :
    decodedRow w = some r ↔ ∃ i, decodeWord w = .ok i ∧ rowOf i = r := by
  simp [decodedRow, decodeWord_ok]

/-- The words `w` and `v` agree on what R74 keys the family of `v` by: the high nibble, and in family 0 the whole word, in
families 5, 8 and 9 the field N, in families E and F the field NN. -/
structure SameKey (w v : Word) : Prop where
  op : fieldOp w = fieldOp v
  whole : fieldOp v = 0x0#4 → w = v
  n : fieldOp v ∈ [0x5#4, 0x8#4, 0x9#4] → fieldN w = fieldN v
  nn : fieldOp v ∈ [0xE#4, 0xF#4] → fieldNN w = fieldNN v

/-- Only the keyed families need more than the high nibble; case `h_k` is the `k`-th arm of `decodeRow`. -/
theorem decodedRow_eq_of_sameKey {w v : Word} (h : SameKey w v) : decodedRow w = decodedRow v := by
  obtain ⟨hop, hwhole, hn, hnn⟩ := h
  unfold decodedRow decodeRow
  rw [hop]
  split <;> rename_i hv
  case h_1 => rw [hwhole hv]
  case h_6 => rw [hn (by simp [hv])]; unfold decodeFamily5; split <;> rfl
  case h_9 => rw [hn (by simp [hv])]; unfold decodeFamily8; split <;> rfl
  case h_10 => rw [hn (by simp [hv])]; unfold decodeFamily9; split <;> rfl
  case h_15 => rw [hnn (by simp [hv])]; unfold decodeFamilyE; split <;> rfl
  case h_16 => rw [hnn (by simp [hv])]; unfold decodeFamilyF; split <;> rfl
  all_goals rfl

/-- In every row of the map the mask keeps what the family of the row's value is keyed by. -/
theorem mask_keeps_key : ∀ r ∈ opcodeRows, fieldOp r.mask = 0xF#4 ∧ (fieldOp r.value = 0x0#4 → r.mask = 0xFFFF#16) ∧
    (fieldOp r.value ∈ [0x5#4, 0x8#4, 0x9#4] → fieldN r.mask = 0xF#4) ∧
    (fieldOp r.value ∈ [0xE#4, 0xF#4] → fieldNN r.mask = 0xFF#8) := by decide

theorem sameKey_of_masked {w : Word} {r : OpcodeRow} (hr : r ∈ opcodeRows) (h : w &&& r.mask = r.value) :
    SameKey w r.value := by
  obtain ⟨hop, hwhole, hn, hnn⟩ := mask_keeps_key r hr
  refine ⟨extractLsb'_of_masked h hop, fun h0 => ?_, fun h589 => extractLsb'_of_masked h (hn h589),
    fun hEF => extractLsb'_of_masked h (hnn hEF)⟩
  rw [hwhole h0] at h
  exact (BitVec.and_allOnes).symm.trans h

/-- The match value of each of the 34 rows is itself a word of that row. -/
theorem decodedRow_value : ∀ r ∈ opcodeRows, decodedRow r.value = some r := by decide

/-- Settles O3: a decoded word is the word of its instruction; a word that matches a row decodes like the row's value. -/
theorem wordIsInstructionOfMatchedRow : Obligations.WordIsInstructionOfMatchedRow := by
  refine ⟨rfl, fun w i hdec => ?_, fun w r hr hmatch => ?_⟩
  · have hw : encode i = w := encode_of_decodeRow ((decodeWord_ok w i).1 hdec)
    obtain ⟨hmem, hrow⟩ := encodesItsRow i
    exact ⟨hmem, (matchesWord_iff (rowOf i) w).1 (hw ▸ hrow)⟩
  · have hkey : SameKey w r.value := sameKey_of_masked hr hmatch
    exact decodedRow_eq_some.1 ((decodedRow_eq_of_sameKey hkey).trans (decodedRow_value r hr))

end Sys2Proof.Proofs
end

