-- ==== Sys2Proof/Proofs/Fetch.lean ====
section
/-! SUPPORT. The fetch (spec/40_cycle.md R92): the big-endian word of two bytes, and the record of a fetch fault. -/

namespace Sys2Proof.Proofs

open Machine

/-- R56: the byte at the lower address supplies bits 15 to 8. -/
theorem toNat_append_bytes (hi lo : Byte) : (hi ++ lo : Word).toNat = 256 * hi.toNat + lo.toNat := by
  calc (hi ++ lo : Word).toNat
      = hi.toNat <<< 8 ||| lo.toNat := BitVec.toNat_append hi lo
    _ = hi.toNat <<< 8 + lo.toNat := (Nat.shiftLeft_add_eq_or_of_lt lo.isLt _).symm
    _ = 256 * hi.toNat + lo.toNat := by rw [Nat.shiftLeft_eq, Nat.mul_comm]

/-- Of the three things a running core's step can do, a failed fetch leaves one. -/
theorem cycle_of_fetch_error {s : State} {a : Nat} (hrun : s.fault = none) (hf : fetch s = .error a) :
    cycle s = raise .addressOutOfRange none (some a) (quiet s) := by
  rcases cycle_running s hrun with ⟨b, hb, hc⟩ | ⟨w, hw, -⟩ | ⟨w, i, hw, -⟩
  · cases hf.symm.trans hb
    exact hc
  · cases hf.symm.trans hw
  · cases hf.symm.trans hw

/-- R92, R98: a running core whose pc is 0xFFF or more latches AddressOutOfRange at the first address of the fetch that does
not exist. -/
theorem cycle_latches_fetch_fault {s : State} (hrun : s.fault = none) (hpc : 0xFFF ≤ s.pc.toNat) :
    ∃ t r, cycle s = .next t ∧ t.fault = some r ∧ r.kind = .addressOutOfRange ∧ r.pc = s.pc ∧ r.opcode = none ∧
      r.info = some (max s.pc.toNat 4096) := by
  have hf : fetch s = .error (max s.pc.toNat 4096) := (fetch_error s _).2 ⟨hpc, rfl⟩
  have hc := cycle_of_fetch_error hrun hf
  exact ⟨_, _, hc.trans ((raise_next _ _ _ _ _).2 rfl), rfl, rfl, rfl, rfl, rfl⟩

/-- Settles O7: below 0xFFF the fetch joins the two bytes, from 0xFFF on it fails at the larger of pc and 4096. -/
theorem fetchIsBigEndianAndRangeChecked : Obligations.FetchIsBigEndianAndRangeChecked := by
  refine ⟨fun s hpc => ?_, fun s hrun hpc => ?_, fun s hrun hpc => ?_⟩
  · exact ⟨_, (fetch_ok s _).2 ⟨by omega, rfl⟩, toNat_append_bytes _ _⟩
  · have hmax : max s.pc.toNat 4096 = s.pc.toNat := Nat.max_eq_left hpc
    exact hmax ▸ cycle_latches_fetch_fault hrun (by omega)
  · have hmax : max s.pc.toNat 4096 = 0x1000 := by omega
    exact hmax ▸ cycle_latches_fetch_fault hrun (by omega)

end Sys2Proof.Proofs
end

