-- ==== Sys2Proof/Proofs/Display.lean ====
section
/-! SUPPORT. The display instructions (spec/41_display.md). -/

namespace Sys2Proof.Proofs

open Machine Sys2Proof.Frame

/-- R95: a completed instruction that neither jumps nor skips goes on at `p + 2`. -/
theorem pcPlus2_advance (s : State) : PcPlus2 s (advance s) := BitVec.toNat_ofNat (s.pc.toNat + 2) 16

/-- The meaning of `00E0` (R111). -/
theorem exec_cls (s : State) : exec .cls s = .next (advance { s with fb := Machine.clearScreen, redraw := true }) := rfl

/-- Settles O43: `00E0` stores the clear screen and the flag whatever they were, and advances; memory is not touched. -/
theorem clearScreen : Obligations.ClearScreen := by
  intro s
  have hunlit : ∀ x y, x < 64 → y < 32 → pixel Machine.clearScreen x y = false := fun x y _ _ => pixel_clearScreen x y
  have hpc : PcPlus2 s (advance s) := pcPlus2_advance s
  exact ⟨rfl, _, exec_cls s, hunlit, rfl, hpc, byteAt_advance _, rfl⟩

end Sys2Proof.Proofs
end

