-- ==== Sys2Proof/Proofs/ControlFlow.lean ====
section
/-! SUPPORT. Jumps and skips (spec/42_control_flow.md): each is one write of the pc, and where the pc then stands decides
whether the next fetch faults. -/

namespace Sys2Proof.Proofs

open Laws Machine Sys2Proof.Frame

/-- The masks and values that the statements write out are those of the instruction's row (R75). -/
theorem encoded_rowOf (i : Instr) : Encoded i (rowOf i).mask (rowOf i).value :=
  (matchesWord_iff (rowOf i) (encode i)).1 (encodesItsRow i).2

/-! The next fetch, by the pc (R92). -/

theorem nextFetchFaults_iff (t : State) : NextFetchFaults t ↔ 0xFFF ≤ t.pc.toNat :=
  ⟨fun ⟨a, ha⟩ => ((fetch_error t a).1 ha).1, fun hpc => ⟨_, (fetch_error t _).2 ⟨hpc, rfl⟩⟩⟩

theorem exists_fetch_ok_iff (t : State) : (∃ w, fetch t = .ok w) ↔ t.pc.toNat ≤ 0xFFE :=
  ⟨fun ⟨w, hw⟩ => ((fetch_ok t w).1 hw).1, fun hpc => ⟨_, (fetch_ok t _).2 ⟨hpc, rfl⟩⟩⟩

/-! Jumps. -/

theorem onlyPc_jumpTo (s : State) (p : Word) : OnlyPc s (jumpTo s p) := ⟨rfl, byteAt_jumpTo s p⟩

theorem toNat_zext16 (nnn : Addr12) : (zext16 nnn).toNat = nnn.toNat :=
  BitVec.toNat_setWidth_of_le (by decide)

/-- R138: an address and an offset add up to 0x10FE at most, so `trunc_16` takes nothing from the sum. -/
theorem toNat_trunc16_offset (nnn : Addr12) (v : Byte) :
    (trunc16 ((zext16 nnn).toNat + v.toNat)).toNat = nnn.toNat + v.toNat := by
  have hnnn : nnn.toNat < 4096 := nnn.isLt
  have hv : v.toNat < 256 := v.isLt
  rw [toNat_zext16]
  exact (BitVec.toNat_ofNat _ 16).trans (Nat.mod_eq_of_lt (by omega))

/-- The meaning of `1NNN` (R132). -/
theorem exec_jp (s : State) (nnn : Addr12) : exec (.jp nnn) s = .next (jumpTo s (zext16 nnn)) := rfl

/-- The meaning of `BNNN` (R138). -/
theorem exec_jpV0 (s : State) (nnn : Addr12) :
    exec (.jpV0 nnn) s = .next (jumpTo s (trunc16 ((zext16 nnn).toNat + (getV s 0x0#4).toNat))) := rfl

/-- Settles O46: the pc is the target, so the next fetch fails at 0xFFF, the highest target, and at no other. -/
theorem jumpAbsolute : Obligations.JumpAbsolute := by
  intro s nnn
  have hpc : (jumpTo s (zext16 nnn)).pc.toNat = nnn.toNat := toNat_zext16 nnn
  refine ⟨encoded_rowOf (.jp nnn), _, exec_jp s nnn, hpc, onlyPc_jumpTo s _, fun hlast => ?_, fun hlow => ?_⟩
  · exact (fetch_error _ _).2 (by rw [hpc, hlast]; decide)
  · have hlt : nnn.toNat < 4096 := nnn.isLt
    exact (exists_fetch_ok_iff _).2 (by omega)

/-- Settles O47: the pc is the whole sum, and from 0xFFF up a pc cannot be fetched from. -/
theorem jumpWithOffset : Obligations.JumpWithOffset := by
  intro s nnn
  exact ⟨encoded_rowOf (.jpV0 nnn), _, exec_jpV0 s nnn, toNat_trunc16_offset nnn _, onlyPc_jumpTo s _,
    (nextFetchFaults_iff _).2⟩

/-! Skips. -/

theorem onlyPc_skipIf (c : Bool) (s : State) : OnlyPc s (skipIf c s) := ⟨skipIf_eq c s, byteAt_skipIf c s⟩

theorem toNat_skipIf_pc (c : Bool) (s : State) :
    (skipIf c s).pc.toNat = (s.pc.toNat + if c then 4 else 2) % 65536 := by
  rw [skipIf_pc]
  exact BitVec.toNat_ofNat _ 16

/-- R134: a skip taken from a pc that can be fetched to 0xFFF or above does not wrap, so the next fetch faults. -/
theorem nextFetchFaults_skipIf_true {s : State} (hfetch : s.pc.toNat ≤ 0xFFE) (hend : 0xFFF ≤ s.pc.toNat + 4) :
    NextFetchFaults (skipIf true s) := by
  have hpc : (skipIf true s).pc.toNat = (s.pc.toNat + 4) % 65536 := toNat_skipIf_pc true s
  exact (nextFetchFaults_iff _).2 (by omega)

/-- What every skip instruction does, `c` being its condition (R130). -/
theorem skips_of_exec {i : Instr} {s : State} {c : Bool} (h : exec i s = .next (skipIf c s)) :
    ∃ t, exec i s = .next t ∧ t.pc.toNat = (s.pc.toNat + if c then 4 else 2) % 65536 ∧ OnlyPc s t ∧
      (c = true → s.pc.toNat ≤ 0xFFE → 0xFFF ≤ s.pc.toNat + 4 → NextFetchFaults t) :=
  ⟨_, h, toNat_skipIf_pc c s, onlyPc_skipIf c s, fun hc => hc ▸ nextFetchFaults_skipIf_true⟩

/-- The meaning of `3XNN` (R134). -/
theorem exec_seVxNn (s : State) (x : Nibble) (nn : Byte) :
    exec (.seVxNn x nn) s = .next (skipIf (getV s x == nn) s) := rfl

/-- The meaning of `4XNN` (R135). -/
theorem exec_sneVxNn (s : State) (x : Nibble) (nn : Byte) :
    exec (.sneVxNn x nn) s = .next (skipIf (getV s x != nn) s) := rfl

/-- The meaning of `5XY0` (R136). -/
theorem exec_seVxVy (s : State) (x y : Nibble) :
    exec (.seVxVy x y) s = .next (skipIf (getV s x == getV s y) s) := rfl

/-- The meaning of `9XY0` (R137). -/
theorem exec_sneVxVy (s : State) (x y : Nibble) :
    exec (.sneVxVy x y) s = .next (skipIf (getV s x != getV s y) s) := rfl

/-- A skip if two bytes are equal. -/
theorem skips_of_exec_beq {i : Instr} {s : State} {a b : Byte} (h : exec i s = .next (skipIf (a == b) s)) :
    ∃ t, exec i s = .next t ∧ t.pc.toNat = (s.pc.toNat + if a = b then 4 else 2) % 65536 ∧ OnlyPc s t ∧
      (a = b → s.pc.toNat ≤ 0xFFE → 0xFFF ≤ s.pc.toNat + 4 → NextFetchFaults t) := by
  simpa only [beq_iff_eq] using skips_of_exec h

/-- A skip if two bytes differ. -/
theorem skips_of_exec_bne {i : Instr} {s : State} {a b : Byte} (h : exec i s = .next (skipIf (a != b) s)) :
    ∃ t, exec i s = .next t ∧ t.pc.toNat = (s.pc.toNat + if a = b then 2 else 4) % 65536 ∧ OnlyPc s t ∧
      (a ≠ b → s.pc.toNat ≤ 0xFFE → 0xFFF ≤ s.pc.toNat + 4 → NextFetchFaults t) := by
  simpa only [bne_iff_ne, ite_not, ne_eq] using skips_of_exec h

/-- Settles O51: a skip on an equality of bytes, and one on its negation. -/
theorem skipOnImmediate : Obligations.SkipOnImmediate := by
  intro s x nn
  exact ⟨encoded_rowOf (.seVxNn x nn), encoded_rowOf (.sneVxNn x nn), skips_of_exec_beq (exec_seVxNn s x nn),
    skips_of_exec_bne (exec_sneVxNn s x nn)⟩

/-! The families 5 and 9, whose low nibble must be 0 (R78). -/

theorem decodeWord_family5_illegal (x y : Nibble) {n : Nibble} (hn : n ≠ 0) :
    decodeWord (wordXYN 0x5#4 x y n) = .error (.illegal (wordXYN 0x5#4 x y n)) := by
  have hrow : decodeRow (wordXYN 0x5#4 x y n) = decodeFamily5 x y n := by simp [decodeRow]
  exact (decodeWord_error _ _).2 ⟨hrow.trans (if_neg hn), rfl⟩

theorem decodeWord_family9_illegal (x y : Nibble) {n : Nibble} (hn : n ≠ 0) :
    decodeWord (wordXYN 0x9#4 x y n) = .error (.illegal (wordXYN 0x9#4 x y n)) := by
  have hrow : decodeRow (wordXYN 0x9#4 x y n) = decodeFamily9 x y n := by simp [decodeRow]
  exact (decodeWord_error _ _).2 ⟨hrow.trans (if_neg hn), rfl⟩

/-- Settles O52: skips as on an immediate, with V[Y] in its place; the decoder of either family rejects every other nibble. -/
theorem skipOnRegisters : Obligations.SkipOnRegisters := by
  intro s x y
  obtain ⟨t, hse, hpcT, honlyT, -⟩ := skips_of_exec_beq (exec_seVxVy s x y)
  obtain ⟨u, hsne, hpcU, honlyU, -⟩ := skips_of_exec_bne (exec_sneVxVy s x y)
  exact ⟨encoded_rowOf (.seVxVy x y), encoded_rowOf (.sneVxVy x y),
    fun n hn => ⟨decodeWord_family5_illegal x y hn, decodeWord_family9_illegal x y hn⟩,
    ⟨t, hse, hpcT, honlyT⟩, ⟨u, hsne, hpcU, honlyU⟩⟩

end Sys2Proof.Proofs
end

