-- ==== Sys2Proof/Proofs/Alu.lean ====
section
/-! SUPPORT. The ALU instructions that set no flag (spec/43_alu.md R151 to R156): each is one `writeVx`, so what a
`writeVx` does is said once, and an instruction adds only the value it writes. -/

namespace Sys2Proof.Proofs

open Machine Sys2Proof.Frame

/-! `V[X] <- v; pc <- p + 2`. -/

@[simp] theorem getV_writeVx_same (s : State) (x : Nibble) (v : Byte) : getV (writeVx s x v) x = v :=
  getV_setV_same s x v

theorem sameRegsBut_writeVx (s : State) (x : Nibble) (v : Byte) : SameRegsBut s (writeVx s x v) (· = x) :=
  fun r hr => getV_setV_ne s x r v hr

theorem onlyVPc_writeVx (s : State) (x : Nibble) (v : Byte) : OnlyVPc s (writeVx s x v) :=
  ⟨rfl, byteAt_setV s x v⟩

/-- All that `writeVx` does besides the write itself: the pc, the other registers, everything else. -/
theorem writeVx_frame (s : State) (x : Nibble) (v : Byte) :
    PcPlus2 s (writeVx s x v) ∧ SameRegsBut s (writeVx s x v) (· = x) ∧ OnlyVPc s (writeVx s x v) :=
  ⟨pcPlus2_advance (setV s x v), sameRegsBut_writeVx s x v, onlyVPc_writeVx s x v⟩

/-! Immediates and copies. -/

/-- The meaning of `6XNN` (R151). -/
theorem exec_ldVxNn (s : State) (x : Nibble) (nn : Byte) : exec (.ldVxNn x nn) s = .next (writeVx s x nn) := rfl

/-- The meaning of `7XNN` (R152). -/
theorem exec_addVxNn (s : State) (x : Nibble) (nn : Byte) :
    exec (.addVxNn x nn) s = .next (writeVx s x (addResult (getV s x) nn)) := rfl

/-- The meaning of `8XY0` (R153). -/
theorem exec_ldVxVy (s : State) (x y : Nibble) : exec (.ldVxVy x y) s = .next (writeVx s x (getV s y)) := rfl

/-- R152, R157: the sum wraps at 256. -/
theorem toNat_addResult (a b : Byte) : (addResult a b).toNat = (a.toNat + b.toNat) % 256 :=
  BitVec.toNat_ofNat _ 8

/-- Settles O25: `6XNN` writes NN. -/
theorem loadImmediate : Obligations.LoadImmediate := by
  intro s x nn
  exact ⟨encoded_rowOf (.ldVxNn x nn), _, exec_ldVxNn s x nn, getV_writeVx_same s x nn, writeVx_frame s x nn⟩

/-- Settles O26: `7XNN` writes the wrapped sum and nothing into VF, so VF changes only as V[X]. -/
theorem addImmediate : Obligations.AddImmediate := by
  intro s x nn
  refine ⟨encoded_rowOf (.addVxNn x nn), _, exec_addVxNn s x nn, ?_, writeVx_frame s x _⟩
  rw [getV_writeVx_same, toNat_addResult]

/-- Settles O27: `8XY0` writes the V[Y] of the state before. -/
theorem copyRegister : Obligations.CopyRegister := by
  intro s x y
  exact ⟨encoded_rowOf (.ldVxVy x y), _, exec_ldVxVy s x y, getV_writeVx_same s x _, writeVx_frame s x _⟩

/-! OR, AND and XOR. -/

/-- The meaning of `8XY1` (R154). -/
theorem exec_or (s : State) (x y : Nibble) :
    exec (.or x y) s = .next (writeVx s x (getV s x ||| getV s y)) := rfl

/-- The meaning of `8XY2` (R155). -/
theorem exec_and (s : State) (x y : Nibble) :
    exec (.and x y) s = .next (writeVx s x (getV s x &&& getV s y)) := rfl

/-- The meaning of `8XY3` (R156). -/
theorem exec_xor (s : State) (x y : Nibble) :
    exec (.xor x y) s = .next (writeVx s x (getV s x ^^^ getV s y)) := rfl

/-- Settles O28: each operation on bytes acts on every bit by itself, and none writes VF as a flag. -/
theorem bitwiseOperations : Obligations.BitwiseOperations := by
  intro s x y
  refine ⟨⟨encoded_rowOf (.or x y), _, exec_or s x y, fun k => ?_, writeVx_frame s x _⟩,
    ⟨encoded_rowOf (.and x y), _, exec_and s x y, fun k => ?_, writeVx_frame s x _⟩,
    ⟨encoded_rowOf (.xor x y), _, exec_xor s x y, fun k => ?_, writeVx_frame s x _⟩⟩
  · rw [getV_writeVx_same, BitVec.getLsbD_or]
  · rw [getV_writeVx_same, BitVec.getLsbD_and]
  · rw [getV_writeVx_same, BitVec.getLsbD_xor]

end Sys2Proof.Proofs
end

