-- ==== Sys2Proof/Proofs/IndexMemory.lean ====
section
/-! SUPPORT. The instructions that write I (spec/44_index_memory.md): each is one write of I and an `advance`, so the frame
is said once, for every value written. -/

namespace Sys2Proof.Proofs

open Machine Sys2Proof.Frame

/-- `trunc_16` is reduction modulo 2^16. -/
theorem toNat_trunc16 (n : Nat) : (trunc16 n).toNat = n % 65536 := BitVec.toNat_ofNat n 16

/-- All that `I <- v; pc <- p + 2` does besides the write itself: the pc, and nothing else. -/
theorem advance_setI_frame (s : State) (v : Word) :
    PcPlus2 s (advance { s with I := v }) ∧ OnlyIPc s (advance { s with I := v }) :=
  ⟨pcPlus2_advance { s with I := v }, rfl, byteAt_advance { s with I := v }⟩

/-- The meaning of `ANNN` (R180). -/
theorem exec_ldINnn (s : State) (nnn : Addr12) :
    exec (.ldINnn nnn) s = .next (advance { s with I := zext16 nnn }) := rfl

/-- The meaning of `FX1E` (R181). -/
theorem exec_addIVx (s : State) (x : Nibble) :
    exec (.addIVx x) s = .next (advance { s with I := trunc16 (s.I.toNat + (getV s x).toNat) }) := rfl

/-- Settles O33: I is the zero-extended NNN, which has 12 bits. -/
theorem loadIndex : Obligations.LoadIndex := by
  intro s nnn
  have hI : (advance { s with I := zext16 nnn }).I.toNat = nnn.toNat := toNat_zext16 nnn
  have hmax : nnn.toNat ≤ 0xFFF := Nat.le_of_lt_succ nnn.isLt
  exact ⟨encoded_rowOf (.ldINnn nnn), _, exec_ldINnn s nnn, hI, hI.trans_le hmax, advance_setI_frame s _⟩

/-- Settles O34: the sum is cut to 16 bits, not to 12, and V is not written, so neither is VF. -/
theorem addToIndex : Obligations.AddToIndex := by
  intro s x
  exact ⟨encoded_rowOf (.addIVx x), _, exec_addIVx s x, toNat_trunc16 _, advance_setI_frame s _⟩

end Sys2Proof.Proofs
end

