-- ==== Sys2Proof/Proofs/KeypadTimers.lean ====
section
/-! SUPPORT. The timer instructions (spec/45_keypad_timers.md): the core's whole step of an instruction that completes ends
with the timer phase, whose ticks take at most the timer's value. -/

namespace Sys2Proof.Proofs

open Machine Sys2Proof.Frame

/-- R240: after `n` ticks the delay timer is less by `n`, or 0. -/
theorem toNat_tickTimes_DT (n : Nat) (t : TimerBlock) : (tickTimes n t).DT.toNat = t.DT.toNat - n := by
  induction n generalizing t with
  | zero => rfl
  | succ n ih =>
    have htick : (tick t).DT.toNat = t.DT.toNat - 1 := countDown_toNat t.DT
    rw [tickTimes_succ, ih, htick]
    omega

theorem toNat_timerPhase_DT (s : State) : (timerPhase s).DT.toNat = s.DT.toNat - s.ticks :=
  toNat_tickTimes_DT s.ticks (timersOf s)

/-- Of the three things a running core's step can do, a fetched and legal word leaves one. -/
theorem cycle_of_decodeRow {s : State} {w : Word} {i : Instr} (hrun : s.fault = none) (hf : fetch s = .ok w)
    (hdec : decodeRow w = some i) : cycle s = finish (exec i (quiet s)) := by
  rcases cycle_running s hrun with ⟨a, ha, -⟩ | ⟨v, hv, hnone, -⟩ | ⟨v, j, hv, hj, hc⟩
  · cases hf.symm.trans ha
  · cases hf.symm.trans hv
    cases hdec.symm.trans hnone
  · cases hf.symm.trans hv
    cases hdec.symm.trans hj
    exact hc

/-- R96: the timer phase ends the step of an instruction that raises no fault. -/
theorem finish_running {t : State} (h : t.fault = none) : finish (.next t) = .next (timerPhase t) :=
  (finish_next _ _).2 ⟨t, rfl, by simp [h]⟩

/-- The meaning of `FX15` (R204). -/
theorem exec_ldDtVx (s : State) (x : Nibble) :
    exec (.ldDtVx x) s = .next (advance { s with DT := getV s x }) := rfl

theorem decodeRow_encode_ldDtVx (x : Nibble) : decodeRow (encode (.ldDtVx x)) = some (.ldDtVx x) := by
  simp [encode, decodeRow, decodeFamilyF]

/-- The core's whole step on `FX15`: the write, then the timer phase. -/
theorem cycle_ldDtVx {s : State} {x : Nibble} (hrun : s.fault = none) (hf : fetch s = .ok (encode (.ldDtVx x))) :
    cycle s = .next (timerPhase (advance { quiet s with DT := getV s x })) :=
  (cycle_of_decodeRow hrun hf (decodeRow_encode_ldDtVx x)).trans (finish_running hrun)

/-- Settles O56: the write sets DT and the pc alone, and the ticks of the step then count down the value written. -/
theorem setDelayTimer : Obligations.SetDelayTimer := by
  intro s x
  refine ⟨encoded_rowOf (.ldDtVx x), ⟨_, exec_ldDtVx s x, rfl, pcPlus2_advance { s with DT := getV s x },
    byteAt_advance { s with DT := getV s x }, rfl⟩, fun hrun hf => ?_⟩
  exact ⟨_, cycle_ldDtVx hrun hf, toNat_timerPhase_DT _⟩

end Sys2Proof.Proofs
end

