-- ==== Sys2Proof/Proofs/Exceptions.lean ====
section
/-! SUPPORT. The timer block's tick (spec/60_exceptions.md R240 to R242): both timers are counted down alike, so everything
about their values follows from `countDown_toNat` and its iteration. -/

namespace Sys2Proof.Proofs

open Machine

/-- The ticks do not tell the two timers apart: from the same value, ST counts as DT does. -/
theorem tickTimes_ST_eq_DT (n : Nat) {t u : TimerBlock} (h : t.ST = u.DT) :
    (tickTimes n t).ST = (tickTimes n u).DT := by
  induction n generalizing t u with
  | zero => exact h
  | succ n ih => exact ih (congrArg countDown h)

/-- R240: after `n` ticks the sound timer is less by `n`, or 0. -/
theorem toNat_tickTimes_ST (n : Nat) (t : TimerBlock) : (tickTimes n t).ST.toNat = t.ST.toNat - n := by
  have hsame : (tickTimes n t).ST = (tickTimes n { t with DT := t.ST }).DT := tickTimes_ST_eq_DT n rfl
  rw [hsame, toNat_tickTimes_DT]

/-- R242: a tick keeps an event already seen, and raises it when it takes ST from 1. -/
theorem tick_edge_iff (t : TimerBlock) : (tick t).edge = true ↔ t.edge = true ∨ t.ST.toNat = 1 := by
  have hone : t.ST = 1 ↔ t.ST.toNat = 1 := BitVec.toNat_inj.symm
  rw [← hone]
  simp [tick]

/-- Settles O12: a tick is a truncated subtraction of one from each timer, so 0 absorbs any number of ticks. -/
theorem tickCountsDown : Obligations.TickCountsDown := by
  intro t
  have hDT : (tick t).DT.toNat = t.DT.toNat - 1 := countDown_toNat t.DT
  have hST : (tick t).ST.toNat = t.ST.toNat - 1 := countDown_toNat t.ST
  refine ⟨fun _ => hDT, fun h0 => ?_, fun _ => hST, fun h0 => ?_, fun hno => ?_, fun n h0 => ?_, fun n h0 => ?_⟩
  · rw [hDT, h0]
  · rw [hST, h0]
  · rw [tick_edge_iff, hno]
    simp
  · rw [toNat_tickTimes_DT, h0, Nat.zero_sub]
  · rw [toNat_tickTimes_ST, h0, Nat.zero_sub]

end Sys2Proof.Proofs
end

