-- ==== Sys2Proof/Proofs/RoundTrip.lean ====
section
/-! SUPPORT. The round trip of the decoder and the encoder (spec/30_encoding.md R76, R77) and the illegal words of R78. -/

namespace Sys2Proof.Proofs

/-- R76: the family of the encoded word is read off its high nibble, its operands and its sub-key off the other fields. -/
theorem decodeRow_encode (i : Instr) : decodeRow (encode i) = some i := by
  cases i
  case cls | ret => rfl
  case jp | call | ldINnn | jpV0 => simp [encode, decodeRow]
  case seVxNn | sneVxNn | ldVxNn | addVxNn | rnd => simp [encode, decodeRow]
  case drw => simp [encode, decodeRow]
  case seVxVy => simp [encode, decodeRow, decodeFamily5]
  case sneVxVy => simp [encode, decodeRow, decodeFamily9]
  case ldVxVy | or | and | xor | addVxVy | sub | shr | subn | shl => simp [encode, decodeRow, decodeFamily8]
  case skp | sknp => simp [encode, decodeRow, decodeFamilyE]
  case ldVxDt | ldVxK | ldDtVx | ldStVx | addIVx | ldFVx | ldBVx | ldMiVx | ldVxMi =>
    simp [encode, decodeRow, decodeFamilyF]

/-- Settles O1, by the family that each instruction is encoded in. -/
theorem decodeOfEncodeIsInstruction : Obligations.DecodeOfEncodeIsInstruction :=
  fun i => (decodeWord_ok _ i).2 (decodeRow_encode i)

/-- Settles O2: the encoder rebuilds the word from the fields that the decoder took it apart into. -/
theorem encodeOfDecodedIsWord : Obligations.EncodeOfDecodedIsWord :=
  fun w i hdec => encode_of_decodeRow ((decodeWord_ok w i).1 hdec)

/-- A word that matches a row of the map decodes to an instruction of that row. -/
theorem decodedRow_of_matchesWord {w : Word} {r : OpcodeRow} (hr : r ∈ opcodeRows) (h : r.matchesWord w = true) :
    decodedRow w = some r :=
  (decodedRow_eq_of_sameKey (sameKey_of_masked hr ((matchesWord_iff r w).1 h))).trans (decodedRow_value r hr)

/-- Settles O4: a word decodes to one row at most. -/
theorem noWordMatchesTwoRows : Obligations.NoWordMatchesTwoRows := by
  intro w r q hr hq hrw hqw
  have hsame : some r = some q := (decodedRow_of_matchesWord hr hrw).symm.trans (decodedRow_of_matchesWord hq hqw)
  exact Option.some.inj hsame

/-- Settles O6. -/
theorem wordsDecodeAsWrittenOut : Obligations.WordsDecodeAsWrittenOut := by
  unfold Obligations.WordsDecodeAsWrittenOut
  decide

/-! The illegal words (R78), family by family. -/

theorem decodeFamily0_eq_none_iff (w : Word) : decodeFamily0 w = none ↔ w ≠ 0x00E0#16 ∧ w ≠ 0x00EE#16 := by
  unfold decodeFamily0
  split_ifs <;> simp_all

theorem decodeFamily5_eq_none_iff (x y n : Nibble) : decodeFamily5 x y n = none ↔ n ≠ 0 := by
  simp [decodeFamily5]

theorem decodeFamily9_eq_none_iff (x y n : Nibble) : decodeFamily9 x y n = none ↔ n ≠ 0 := by
  simp [decodeFamily9]

theorem decodeFamily8_eq_none_iff (x y n : Nibble) :
    decodeFamily8 x y n = none ↔ n ∈ [0x8#4, 0x9#4, 0xA#4, 0xB#4, 0xC#4, 0xD#4, 0xF#4] := by
  unfold decodeFamily8
  split
  case h_10 => simp only [true_iff]; revert n; decide
  all_goals simp

theorem decodeFamilyE_eq_none_iff (x : Nibble) (nn : Byte) :
    decodeFamilyE x nn = none ↔ nn ∉ [0x9E#8, 0xA1#8] := by
  unfold decodeFamilyE
  split <;> simp_all

theorem decodeFamilyF_eq_none_iff (x : Nibble) (nn : Byte) :
    decodeFamilyF x nn = none ↔ nn ∉ [0x07#8, 0x0A#8, 0x15#8, 0x18#8, 0x1E#8, 0x29#8, 0x33#8, 0x55#8, 0x65#8] := by
  unfold decodeFamilyF
  split <;> simp_all

/-- The check of each family asks for its high nibble first, so in family `op` the other checks are off. -/
theorem wordIllegal_iff (w : Word) : wordIllegal w = true ↔
    (fieldOp w = 0x0#4 ∧ w ≠ 0x00E0#16 ∧ w ≠ 0x00EE#16) ∨
    ((fieldOp w = 0x5#4 ∨ fieldOp w = 0x9#4) ∧ fieldN w ≠ 0) ∨
    (fieldOp w = 0x8#4 ∧ fieldN w ∈ [0x8#4, 0x9#4, 0xA#4, 0xB#4, 0xC#4, 0xD#4, 0xF#4]) ∨
    (fieldOp w = 0xE#4 ∧ fieldNN w ∉ [0x9E#8, 0xA1#8]) ∨
    (fieldOp w = 0xF#4 ∧
      fieldNN w ∉ [0x07#8, 0x0A#8, 0x15#8, 0x18#8, 0x1E#8, 0x29#8, 0x33#8, 0x55#8, 0x65#8]) := by
  simp only [wordIllegal, badFamily0, badFamily59, badFamily8, badFamilyE, badFamilyF, fieldOp, fieldN, fieldNN,
    Bool.or_eq_true, Bool.and_eq_true, beq_iff_eq, bne_iff_ne, List.contains_eq_mem, Bool.not_eq_true',
    decide_eq_true_eq, decide_eq_false_iff_not, or_assoc, and_assoc]
  rfl

/-- R78: the five lists are what the families' sub-keys leave over. Case `h_k` is the `k`-th arm of `decodeRow`. -/
theorem decodeRow_eq_none_iff (w : Word) : decodeRow w = none ↔ wordIllegal w = true := by
  rw [wordIllegal_iff]
  unfold decodeRow
  split <;> rename_i hop
  case h_1 => simp [hop, decodeFamily0_eq_none_iff]
  case h_6 => simp [hop, decodeFamily5_eq_none_iff]
  case h_9 => simp [hop, decodeFamily8_eq_none_iff]
  case h_10 => simp [hop, decodeFamily9_eq_none_iff]
  case h_15 => simp [hop, decodeFamilyE_eq_none_iff]
  case h_16 => simp [hop, decodeFamilyF_eq_none_iff]
  case h_17 => exfalso; generalize fieldOp w = op at *; revert op; decide
  all_goals simp [hop]

end Sys2Proof.Proofs
end

