-- ==== Sys2Proof/Proofs/AluFlags.lean ====
section
/-! SUPPORT. The ALU instructions that set a flag (spec/43_alu.md R157 to R161) and RND (R162): each of the five is one
`writeFlagged`, so its frame is said once, and an instruction adds the value it writes and the flag. -/

namespace Sys2Proof.Proofs

open Machine Sys2Proof.Frame

/-! The flag into VF, the result into V[X], `pc <- p + 2`. -/

@[simp] theorem getV_writeFlagged_same (s : State) (x : Nibble) (flag : Bool) (v : Byte) :
    getV (writeFlagged s x flag v) x = v := getV_setV_same (setV s VF (flagByte flag)) x v

theorem toNat_flagByte (b : Bool) : (flagByte b).toNat = if b = true then 1 else 0 := by cases b <;> rfl

/-- The result goes in last, so VF keeps the flag only where X is another register (R150; D3). -/
theorem toNat_VF_writeFlagged {s : State} {x : Nibble} (hx : x ≠ 0xF#4) (flag : Bool) (v : Byte) :
    (getV (writeFlagged s x flag v) 0xF#4).toNat = if flag = true then 1 else 0 := by
  have hkept : getV (writeFlagged s x flag v) 0xF#4 = getV (setV s VF (flagByte flag)) 0xF#4 :=
    getV_setV_ne _ x 0xF#4 v hx.symm
  rw [hkept, ← toNat_flagByte]
  exact congrArg BitVec.toNat (getV_setV_same s VF _)

theorem sameRegsBut_writeFlagged (s : State) (x : Nibble) (flag : Bool) (v : Byte) :
    SameRegsBut s (writeFlagged s x flag v) (fun r => r = x ∨ r = 0xF#4) := by
  intro r hr
  obtain ⟨hrx, hrF⟩ := not_or.1 hr
  exact (getV_setV_ne _ x r v hrx).trans (getV_setV_ne s VF r _ hrF)

/-- All that `writeFlagged` does besides the two writes: the pc, the other registers, everything else. -/
theorem writeFlagged_frame (s : State) (x : Nibble) (flag : Bool) (v : Byte) :
    PcPlus2 s (writeFlagged s x flag v) ∧ SameRegsBut s (writeFlagged s x flag v) (fun r => r = x ∨ r = 0xF#4) ∧
      OnlyVPc s (writeFlagged s x flag v) :=
  ⟨pcPlus2_advance (setFlagThenResult s x flag v), sameRegsBut_writeFlagged s x flag v, rfl, fun _ => rfl⟩

/-! The meanings, and the values they write as naturals. -/

/-- The meaning of `8XY4` (R157). -/
theorem exec_addVxVy (s : State) (x y : Nibble) : exec (.addVxVy x y) s =
    .next (writeFlagged s x (addCarry (getV s x) (getV s y)) (addResult (getV s x) (getV s y))) := rfl

/-- The meaning of `8XY5` (R158). -/
theorem exec_sub (s : State) (x y : Nibble) : exec (.sub x y) s =
    .next (writeFlagged s x (subNoBorrow (getV s x) (getV s y)) (subResult (getV s x) (getV s y))) := rfl

/-- The meaning of `8XY6` (R159). -/
theorem exec_shr (s : State) (x y : Nibble) : exec (.shr x y) s =
    .next (writeFlagged s x (shrOut (getV s x)) (shrResult (getV s x))) := rfl

/-- The meaning of `8XY7` (R160). -/
theorem exec_subn (s : State) (x y : Nibble) : exec (.subn x y) s =
    .next (writeFlagged s x (subNoBorrow (getV s y) (getV s x)) (subResult (getV s y) (getV s x))) := rfl

/-- The meaning of `8XYE` (R161). -/
theorem exec_shl (s : State) (x y : Nibble) : exec (.shl x y) s =
    .next (writeFlagged s x (shlOut (getV s x)) (shlResult (getV s x))) := rfl

/-- The meaning of `CXNN` (R162). -/
theorem exec_rnd (s : State) (x : Nibble) (nn : Byte) : exec (.rnd x nn) s = .next (writeVx s x (s.rnd &&& nn)) := rfl

/-- `trunc_8` is reduction modulo 2^8. -/
theorem toNat_trunc8 (n : Nat) : (trunc8 n).toNat = n % 256 := BitVec.toNat_ofNat n 8

theorem addCarry_iff (a b : Byte) : addCarry a b = true ↔ 256 ≤ a.toNat + b.toNat := by
  simp [addCarry, Nat.lt_iff_add_one_le]

/-- R158: the 256 that is added before the subtraction is a multiple of the modulus. -/
theorem toNat_subResult (a b : Byte) : ((subResult a b).toNat : Int) = (a.toNat - b.toNat : Int) % 256 := by
  have hb : b.toNat < 256 := b.isLt
  have h : (subResult a b).toNat = (a.toNat + 256 - b.toNat) % 256 := toNat_trunc8 _
  omega

theorem subNoBorrow_iff (a b : Byte) : subNoBorrow a b = true ↔ b.toNat ≤ a.toNat := by
  simp [subNoBorrow]

theorem toNat_shrResult (a : Byte) : (shrResult a).toNat = a.toNat / 2 := by
  have ha : a.toNat < 256 := a.isLt
  rw [shrResult, toNat_trunc8, Nat.shiftRight_eq_div_pow]
  omega

theorem toNat_shlResult (a : Byte) : (shlResult a).toNat = 2 * a.toNat % 256 := by
  rw [shlResult, toNat_trunc8, Nat.shiftLeft_eq]
  omega

/-- The bit `k` of a byte as a natural is what `2^k` leaves of it, modulo 2. -/
theorem toNat_getLsbD (a : Byte) (k : Nat) : (if a.getLsbD k = true then 1 else 0) = a.toNat / 2 ^ k % 2 := by
  rw [← BitVec.testBit_toNat, Nat.testBit_eq_decide_div_mod_eq]
  rcases Nat.mod_two_eq_zero_or_one (a.toNat / 2 ^ k) with h | h <;> simp [h]

/-- Settles O29: the carry is the sum's ninth bit. -/
theorem addWithCarryOut : Obligations.AddWithCarryOut := by
  intro s x y
  refine ⟨_, exec_addVxVy s x y, ?_, fun hx => ?_, writeFlagged_frame s x _ _⟩
  · rw [getV_writeFlagged_same, toNat_addResult]
  · simp only [toNat_VF_writeFlagged hx, addCarry_iff]

/-- Settles O30: both subtractions are `subResult` with its `subNoBorrow`, the operands exchanged in the second. -/
theorem subtractWithNotBorrow : Obligations.SubtractWithNotBorrow := by
  intro s x y
  refine ⟨⟨_, exec_sub s x y, ?_, fun hx => ?_, writeFlagged_frame s x _ _⟩,
    ⟨_, exec_subn s x y, ?_, fun hx => ?_, writeFlagged_frame s x _ _⟩⟩
  · rw [getV_writeFlagged_same, toNat_subResult]
  · simp only [toNat_VF_writeFlagged hx, subNoBorrow_iff]
  · rw [getV_writeFlagged_same, toNat_subResult]
  · simp only [toNat_VF_writeFlagged hx, subNoBorrow_iff]

/-- Settles O31: the bit shifted out is bit 0 of V[X], or bit 7. -/
theorem shiftByOne : Obligations.ShiftByOne := by
  intro s x y
  have hlt : (getV s x).toNat < 256 := (getV s x).isLt
  refine ⟨⟨_, exec_shr s x y, ?_, fun hx => ?_, writeFlagged_frame s x _ _⟩,
    ⟨_, exec_shl s x y, ?_, fun hx => ?_, writeFlagged_frame s x _ _⟩⟩
  · rw [getV_writeFlagged_same, toNat_shrResult]
  · have hbit := toNat_getLsbD (getV s x) 0
    rw [toNat_VF_writeFlagged hx, shrOut, hbit, pow_zero, Nat.div_one]
  · rw [getV_writeFlagged_same, toNat_shlResult]
  · have hbit := toNat_getLsbD (getV s x) 7
    rw [toNat_VF_writeFlagged hx, shlOut, hbit]
    omega

/-- Settles O32: `CXNN` writes the bitwise AND of the input and NN. -/
theorem randomUnderMask : Obligations.RandomUnderMask := by
  intro s x nn
  refine ⟨_, exec_rnd s x nn, fun k => ?_, writeVx_frame s x _⟩
  rw [getV_writeVx_same, BitVec.getLsbD_and]

end Sys2Proof.Proofs
end

