-- ==== Sys2Proof/Proofs/Transfers.lean ====
section
/-! SUPPORT. The memory transfers (spec/44_index_memory.md R182 to R185): which addresses the checks let through, what the
store and the load then do, and the two together. -/

namespace Sys2Proof.Proofs

open Machine Sys2Proof.Frame

/-- The meaning of `FX29` (R182). -/
theorem exec_ldFVx (s : State) (x : Nibble) :
    exec (.ldFVx x) s = .next (advance { s with I := trunc16 (5 * (getV s x).toNat) }) := rfl

/-- Settles O35: the product is 1275 at most, so nothing is cut off. -/
theorem pointAtGlyph : Obligations.PointAtGlyph := by
  intro s x
  have hv : (getV s x).toNat < 256 := (getV s x).isLt
  have hI : (trunc16 (5 * (getV s x).toNat)).toNat = 5 * (getV s x).toNat :=
    (toNat_trunc16 _).trans (Nat.mod_eq_of_lt (by omega))
  exact ⟨encoded_rowOf (.ldFVx x), _, exec_ldFVx s x, hI, advance_setI_frame s _⟩

/-! The checks let the transfer through. -/

/-- The meaning of `FX33` where the three bytes are writable memory (R183). -/
theorem exec_ldBVx {s : State} {x : Nibble} (hlo : 0x050 ≤ s.I.toNat) (hhi : s.I.toNat + 3 ≤ 4096) :
    exec (.ldBVx x) s = .next (advance (storeBytes s s.I.toNat (decimalDigits (getV s x)))) := by
  have hok : writeFault s.I.toNat 3 = none := (writeFault_none _ _).2 (.inr ⟨hlo, hhi⟩)
  simp only [exec, execLdBVx, hok]

/-- The meaning of `FX55` where the X + 1 bytes are writable memory (R184). -/
theorem exec_ldMiVx {s : State} {x : Nibble} (hlo : 0x050 ≤ s.I.toNat) (hhi : s.I.toNat + x.toNat + 1 ≤ 4096) :
    exec (.ldMiVx x) s = .next (advance (storeBytes s s.I.toNat (regsUpTo s x))) := by
  have hok : writeFault s.I.toNat (upTo x) = none := (writeFault_none _ _).2 (.inr ⟨hlo, hhi⟩)
  simp only [exec, execLdMiVx, hok]

/-- The meaning of `FX65` where the X + 1 bytes exist (R185). -/
theorem exec_ldVxMi {s : State} {x : Nibble} (hhi : s.I.toNat + x.toNat + 1 ≤ 4096) :
    exec (.ldVxMi x) s = .next (advance { s with V := loadRegs s s.I.toNat (upTo x) s.V }) := by
  have hok : readFault s.I.toNat (upTo x) = none := (readFault_none _ _).2 (.inr hhi)
  simp only [exec, execLdVxMi, hok]

/-! What is stored and what is loaded. -/

theorem byteAt_storeBytes_outside {s : State} {a : Nat} {bs : List Byte} :
    SameBytesOutside s (storeBytes s a bs) a bs.length := by
  obtain ⟨-, hout, -⟩ := storeBytes_spec s a bs
  exact hout

theorem byteAt_storeBytes_inside {s : State} {a : Nat} {bs : List Byte} {k : Nat} (hk : k < bs.length) :
    byteAt (storeBytes s a bs) (a + k) = bs[k] := by
  obtain ⟨hin, -, -⟩ := storeBytes_spec s a bs
  exact hin k hk

/-- The frame of a store and an `advance`, by the number of bytes stored. -/
theorem advance_storeBytes_frame (s : State) (a : Nat) (bs : List Byte) :
    SameBytesOutside s (advance (storeBytes s a bs)) a bs.length ∧ PcPlus2 s (advance (storeBytes s a bs)) ∧
      advance (storeBytes s a bs) =
        { s with mem := (advance (storeBytes s a bs)).mem, pc := (advance (storeBytes s a bs)).pc } :=
  ⟨byteAt_storeBytes_outside, pcPlus2_advance (storeBytes s a bs), rfl⟩

/-- The k-th byte of the digits lies at the k-th address. -/
theorem byteAt_storeDigits (s : State) (a : Nat) (v : Byte) (k : Nat) (hk : k < 3) :
    byteAt (storeBytes s a (decimalDigits v)) (a + k) = (decimalDigits v)[k]'hk :=
  byteAt_storeBytes_inside hk

theorem byteAt_storeRegs {s : State} {a : Nat} {x r : Nibble} (hr : r.toNat ≤ x.toNat) :
    byteAt (storeBytes s a (regsUpTo s x)) (a + r.toNat) = getV s r := by
  have hlen : r.toNat < (regsUpTo s x).length := by rw [length_regsUpTo]; omega
  calc byteAt (storeBytes s a (regsUpTo s x)) (a + r.toNat)
      = (regsUpTo s x)[r.toNat] := byteAt_storeBytes_inside hlen
    _ = getV s (BitVec.ofNat 4 r.toNat) := getElem_regsUpTo s x r.toNat hlen
    _ = getV s r := by rw [BitVec.ofNat_toNat, BitVec.setWidth_eq]

/-- Each register of the loaded file: the byte for V[0..X], the old value above. -/
theorem getV_loadRegs (s : State) (base : Nat) (x r : Nibble) :
    getV { s with V := loadRegs s base (upTo x) s.V } r =
      if r.toNat ≤ x.toNat then byteAt s (base + r.toNat) else getV s r := by
  have h := getElem_loadRegs s base (upTo x) s.V r.toNat r.isLt
  simp only [upTo, Nat.lt_add_one_iff] at h
  exact h

/-- A byte's three digits fit in bytes. -/
theorem toNat_digits (v : Byte) : (trunc8 (v.toNat / 100)).toNat = v.toNat / 100 ∧
    (trunc8 (v.toNat / 10 % 10)).toNat = v.toNat / 10 % 10 ∧ (trunc8 (v.toNat % 10)).toNat = v.toNat % 10 := by
  have hv : v.toNat < 256 := v.isLt
  simp only [toNat_trunc8]
  omega

/-- What every address holds after the digits are stored. -/
theorem toNat_byteAt_storeDigits (s : State) (x : Nibble) (a : Nat) :
    (byteAt (storeBytes s s.I.toNat (decimalDigits (getV s x))) a).toNat = afterDigits s x a := by
  have hbyte := byteAt_storeDigits s s.I.toNat (getV s x)
  obtain ⟨h100, h10, h1⟩ := toNat_digits (getV s x)
  unfold afterDigits
  split_ifs with hhun hten hunit
  · subst hhun; exact (congrArg BitVec.toNat (hbyte 0 (by decide))).trans h100
  · subst hten; exact (congrArg BitVec.toNat (hbyte 1 (by decide))).trans h10
  · subst hunit; exact (congrArg BitVec.toNat (hbyte 2 (by decide))).trans h1
  · have hout : a < s.I.toNat ∨ s.I.toNat + 3 ≤ a := by omega
    exact congrArg BitVec.toNat (byteAt_storeBytes_outside a hout)

/-- Settles O36: the three addresses are those that `afterDigits` singles out. -/
theorem storeDecimalDigits : Obligations.StoreDecimalDigits := by
  intro s x hlo hhi
  refine ⟨_, exec_ldBVx hlo hhi, ?_, ?_, ?_, advance_storeBytes_frame s _ _⟩ <;>
    simp [toNat_byteAt_storeDigits, afterDigits]

/-- Settles O37. -/
theorem storeRegisters : Obligations.StoreRegisters := by
  intro s x hlo hhi
  have hframe := advance_storeBytes_frame s s.I.toNat (regsUpTo s x)
  rw [length_regsUpTo] at hframe
  exact ⟨_, exec_ldMiVx hlo hhi, fun r hr => byteAt_storeRegs hr, hframe⟩

/-- Settles O38: the loaded file has the bytes below X + 1 and the old registers above. -/
theorem loadRegisters : Obligations.LoadRegisters := by
  intro s x hhi
  refine ⟨_, exec_ldVxMi hhi, fun r hr => ?_, fun r hr => ?_, pcPlus2_advance _, rfl, fun _ => rfl⟩
  · rw [getV_advance, getV_loadRegs, if_pos hr]
  · rw [getV_advance, getV_loadRegs, if_neg hr]

/-! The checks raise a fault. -/

theorem raises_ldBVx {s : State} {x : Nibble} {k : FaultKind} {a : Nat} (h : writeFault s.I.toNat 3 = some (k, a)) :
    Raises (.ldBVx x) s k (some a) := by
  simp only [Raises, exec, execLdBVx, h, raise]

theorem raises_ldMiVx {s : State} {x : Nibble} {k : FaultKind} {a : Nat}
    (h : writeFault s.I.toNat (upTo x) = some (k, a)) : Raises (.ldMiVx x) s k (some a) := by
  simp only [Raises, exec, execLdMiVx, h, raise]

theorem raises_ldVxMi {s : State} {x : Nibble} {k : FaultKind} {a : Nat}
    (h : readFault s.I.toNat (upTo x) = some (k, a)) : Raises (.ldVxMi x) s k (some a) := by
  simp only [Raises, exec, execLdVxMi, h, raise]

theorem raises_drw {s : State} {x y n : Nibble} {k : FaultKind} {a : Nat}
    (h : readFault s.I.toNat n.toNat = some (k, a)) : Raises (.drw x y n) s k (some a) := by
  simp only [Raises, exec, execDrw, h, raise]

/-- Settles O39: the range check comes first; past it, only a start in the font region fails. -/
theorem storesTrapOnLowestBadAddress : Obligations.StoresTrapOnLowestBadAddress := by
  intro s x
  have hx : x.toNat < 16 := x.isLt
  have hupTo : upTo x = x.toNat + 1 := rfl
  refine ⟨fun h => raises_ldBVx ?_, fun h => raises_ldBVx ?_, fun h => raises_ldMiVx ?_, fun h => raises_ldMiVx ?_⟩ <;>
    rw [writeFault_some]
  · exact ⟨by omega, .inl ⟨rfl, h, rfl⟩⟩
  · exact ⟨by omega, .inr ⟨rfl, by omega, by omega, rfl⟩⟩
  · exact ⟨by omega, .inl ⟨rfl, h, rfl⟩⟩
  · exact ⟨by omega, .inr ⟨rfl, by omega, by omega, rfl⟩⟩

/-- Settles O40: both instructions check the whole run before they read. -/
theorem readsTrapOnLowestBadAddress : Obligations.ReadsTrapOnLowestBadAddress := by
  intro s x y n
  exact ⟨fun h => raises_ldVxMi ((readFault_some _ _ _ _).2 ⟨rfl, h, Nat.succ_pos _, rfl⟩),
    fun hn h => raises_drw ((readFault_some _ _ _ _).2 ⟨rfl, h, hn, rfl⟩)⟩

/-! Store and load, store and fetch. -/

/-- Settles O41: what is loaded is what `storeRegisters` says lies there, wherever the load is run. -/
theorem storeThenLoadRestoresRegisters : Obligations.StoreThenLoadRestoresRegisters := by
  intro s t u x hlo hhi hstore hbytes hI
  cases (exec_ldMiVx hlo hhi).symm.trans hstore
  have hIu : u.I = s.I := hI
  refine ⟨_, exec_ldVxMi (hIu ▸ hhi), fun r hr => ?_, fun r hr => ?_⟩
  · rw [getV_advance, getV_loadRegs, if_pos hr, hbytes, hIu, byteAt_advance, byteAt_storeRegs hr]
  · rw [getV_advance, getV_loadRegs, if_neg (by omega)]

/-- What every address holds after the registers are stored. -/
theorem toNat_byteAt_storeRegs (s : State) (x : Nibble) (a : Nat) :
    (byteAt (storeBytes s s.I.toNat (regsUpTo s x)) a).toNat = afterRegisters s x a := by
  have hx : x.toNat < 16 := x.isLt
  unfold afterRegisters
  split_ifs with hin
  · have hr : (BitVec.ofNat 4 (a - s.I.toNat)).toNat = a - s.I.toNat := Nat.mod_eq_of_lt (by omega)
    have ha : a = s.I.toNat + (BitVec.ofNat 4 (a - s.I.toNat)).toNat := by omega
    have hbyte := byteAt_storeRegs (s := s) (a := s.I.toNat) (x := x) (r := BitVec.ofNat 4 (a - s.I.toNat)) (by omega)
    rw [← ha] at hbyte
    exact congrArg BitVec.toNat hbyte
  · have hlen : (regsUpTo s x).length = x.toNat + 1 := length_regsUpTo s x
    exact congrArg BitVec.toNat (byteAt_storeBytes_outside a (by omega))

/-- The fetch after an instruction that went on at `p + 2`: the two bytes there, as they are then. -/
theorem fetch_after_advance {s t : State} (hpc : s.pc.toNat + 3 < 4096) (ht : PcPlus2 s t) :
    t.pc.toNat = s.pc.toNat + 2 ∧ ∃ w, fetch t = .ok w ∧
      w.toNat = 256 * (byteAt t (s.pc.toNat + 2)).toNat + (byteAt t (s.pc.toNat + 3)).toNat := by
  have hp : t.pc.toNat = s.pc.toNat + 2 := ht.trans (Nat.mod_eq_of_lt (by omega))
  obtain ⟨hfetch, -, -⟩ := fetchIsBigEndianAndRangeChecked
  obtain ⟨w, hw, hval⟩ := hfetch t (by omega)
  rw [hp] at hval
  exact ⟨hp, w, hw, hval⟩

/-- Settles O42: a fetch reads the memory that the store has just left. -/
theorem storedWordIsFetchedNext : Obligations.StoredWordIsFetchedNext := by
  intro s x hlo hpc
  refine ⟨fun hhi => ?_, fun hhi => ?_⟩
  · obtain ⟨hp, w, hw, hval⟩ := fetch_after_advance hpc
      (pcPlus2_advance (storeBytes s s.I.toNat (decimalDigits (getV s x))))
    simp only [byteAt_advance, toNat_byteAt_storeDigits] at hval
    exact ⟨_, w, exec_ldBVx hlo hhi, hp, hw, hval⟩
  · obtain ⟨hp, w, hw, hval⟩ := fetch_after_advance hpc
      (pcPlus2_advance (storeBytes s s.I.toNat (regsUpTo s x)))
    simp only [byteAt_advance, toNat_byteAt_storeRegs] at hval
    exact ⟨_, w, exec_ldMiVx hlo hhi, hp, hw, hval⟩

end Sys2Proof.Proofs
end

