-- ==== Sys2Proof/Proofs/Draw.lean ====
section
/-! SUPPORT. The XOR-blit (spec/41_display.md R112 to R115). A row of bits visits each pixel at most once, and so do the rows
of a sprite; so each pixel is XORed with its own bit, and a bit collides with the pixel as it was before the drawing. -/

namespace Sys2Proof.Proofs

open Machine Sys2Proof.Frame

/-- The drawing `e` comes from `d` by drawing the bits `B`, each pixel's bit once. -/
structure Paints (d e : Drawing) (B : Nat → Nat → Bool) : Prop where
  pixels : ∀ a b, pixel e.fb a b = (pixel d.fb a b ^^ (B a b && decide (a < 64 ∧ b < 32)))
  collides : e.collision = true ↔ d.collision = true ∨ ∃ a b, B a b = true ∧ pixel d.fb a b = true

theorem paints_nothing (d : Drawing) : Paints d d fun _ _ => false := ⟨by simp, by simp⟩

/-- One bit after another, where no pixel is visited twice: the second meets the pixels as the first found them. -/
theorem Paints.trans {d e f : Drawing} {B C : Nat → Nat → Bool} (hB : Paints d e B) (hC : Paints e f C)
    (hdisj : ∀ a b, C a b = true → B a b = false) : Paints d f fun a b => B a b || C a b := by
  have hfound : ∀ a b, C a b = true → pixel e.fb a b = pixel d.fb a b := fun a b h => by
    rw [hB.pixels, hdisj a b h, Bool.false_and, Bool.xor_false]
  refine ⟨fun a b => ?_, ?_⟩
  · rw [hC.pixels, hB.pixels]
    cases hc : C a b with
    | false => simp
    | true => simp [hdisj a b hc]
  · have hmeets : (∃ a b, C a b = true ∧ pixel e.fb a b = true) ↔ ∃ a b, C a b = true ∧ pixel d.fb a b = true :=
      exists₂_congr fun a b => and_congr_right fun h => by rw [hfound a b h]
    rw [hC.collides, hB.collides, hmeets, or_assoc]
    simp only [Bool.or_eq_true, or_and_right, exists_or]

theorem paints_drawBit (d : Drawing) (px py : Nat) (bit : Bool) :
    Paints d (drawBit d px py bit) fun a b => bit && decide (px = a ∧ py = b) := by
  refine ⟨fun a b => ?_, ?_⟩
  · rw [pixel_drawBit]
    simp only [Bool.and_assoc, ← Bool.decide_and, and_assoc]
  · rw [collision_drawBit]
    simp [and_assoc]

/-! One row. -/

/-- The leftmost `n` bits of a sprite row, drawn in order: `drawRow` draws 8. -/
def drawBits (d : Drawing) (x0 py : Nat) (row : Byte) (n : Nat) : Drawing :=
  (List.range n).foldl (fun d c => drawBit d (x0 + c) py (row.getLsbD (7 - c))) d

theorem drawBits_succ (d : Drawing) (x0 py : Nat) (row : Byte) (n : Nat) :
    drawBits d x0 py row (n + 1) = drawBit (drawBits d x0 py row n) (x0 + n) py (row.getLsbD (7 - n)) := by
  simp [drawBits, List.range_succ]

/-- The bit that the leftmost `n` bits of a row put at a pixel (R113). -/
def rowBit (x0 py : Nat) (row : Byte) (n a b : Nat) : Bool :=
  decide (py = b ∧ x0 ≤ a ∧ a < x0 + n) && row.getLsbD (7 - (a - x0))

theorem rowBit_succ (x0 py : Nat) (row : Byte) (n a b : Nat) : rowBit x0 py row (n + 1) a b =
    (rowBit x0 py row n a b || (row.getLsbD (7 - n) && decide (x0 + n = a ∧ py = b))) := by
  unfold rowBit
  by_cases hcol : x0 + n = a
  · subst hcol
    simp [Bool.and_comm]
  · have hcols : (x0 ≤ a ∧ a < x0 + (n + 1)) ↔ (x0 ≤ a ∧ a < x0 + n) := by omega
    simp [hcol, hcols]

theorem paints_drawBits (d : Drawing) (x0 py : Nat) (row : Byte) (n : Nat) :
    Paints d (drawBits d x0 py row n) (rowBit x0 py row n) := by
  induction n with
  | zero =>
    have hnone : rowBit x0 py row 0 = fun _ _ => false := by
      funext a b
      simp [rowBit]
    exact hnone ▸ paints_nothing d
  | succ n ih =>
    have hboth := ih.trans (paints_drawBit (drawBits d x0 py row n) (x0 + n) py (row.getLsbD (7 - n))) fun a b h => by
      simp only [Bool.and_eq_true, decide_eq_true_eq] at h
      simp [rowBit, ← h.2.1]
    rw [drawBits_succ, funext₂ (rowBit_succ x0 py row n)]
    exact hboth

theorem paints_drawRow (d : Drawing) (x0 py : Nat) (row : Byte) :
    Paints d (drawRow d x0 py row) (rowBit x0 py row 8) := paints_drawBits d x0 py row 8

/-! All rows. -/

/-- The bit that the rows of a sprite put at a pixel (R112, R113). -/
def rowsBit (x0 py : Nat) (rows : List Byte) (a b : Nat) : Bool :=
  decide (x0 ≤ a ∧ a < x0 + 8 ∧ py ≤ b ∧ b < py + rows.length) && (rows.getD (b - py) 0).getLsbD (7 - (a - x0))

theorem rowsBit_cons (x0 py : Nat) (row : Byte) (rows : List Byte) (a b : Nat) : rowsBit x0 py (row :: rows) a b =
    (rowBit x0 py row 8 a b || rowsBit x0 (py + 1) rows a b) := by
  unfold rowsBit rowBit
  by_cases hrow : py = b
  · subst hrow
    simp
  · by_cases hlow : b < py
    · simp [hrow, show ¬ py ≤ b by omega, show ¬ py + 1 ≤ b by omega]
    · have hnext : b - py = b - (py + 1) + 1 := by omega
      have hrows : (py ≤ b ∧ b < py + (rows.length + 1)) ↔ (py + 1 ≤ b ∧ b < py + 1 + rows.length) := by omega
      simp [hrow, hnext, hrows]

theorem paints_drawRows (d : Drawing) (x0 py : Nat) (rows : List Byte) :
    Paints d (drawRows d x0 py rows) (rowsBit x0 py rows) := by
  induction rows generalizing d py with
  | nil =>
    have hnone : rowsBit x0 py [] = fun _ _ => false := by
      funext a b
      simp [rowsBit]
    exact hnone ▸ paints_nothing d
  | cons row rows ih =>
    have hboth := (paints_drawRow d x0 py row).trans (ih (drawRow d x0 py row) (py + 1)) fun a b h => by
      simp only [rowsBit, Bool.and_eq_true, decide_eq_true_eq] at h
      simp [rowBit, show py ≠ b by omega]
    rw [funext₂ (rowsBit_cons x0 py row rows)]
    exact hboth

/-! `DXYN`. -/

/-- The rows that `DXYN` reads put the bits of `spriteBit` on the screen (R112, R113). -/
theorem rowsBit_readBytes (s : State) (x y n : Nibble) :
    rowsBit (getV s x).toNat (getV s y).toNat (s.mem.readBytes s.font s.I.toNat n.toNat) = spriteBit s x y n := by
  funext a b
  unfold rowsBit spriteBit
  rw [length_readBytes]
  by_cases hrow : (getV s y).toNat ≤ b ∧ b < (getV s y).toNat + n.toNat
  · have hk : b - (getV s y).toNat < (s.mem.readBytes s.font s.I.toNat n.toNat).length := by
      rw [length_readBytes]
      omega
    have hbyte : (s.mem.readBytes s.font s.I.toNat n.toNat).getD (b - (getV s y).toNat) 0 =
        byteAt s (s.I.toNat + (b - (getV s y).toNat)) := by
      rw [List.getD_eq_getElem _ _ hk, getElem_readBytes]
      rfl
    rw [hbyte]
  · simp [hrow]

theorem paints_spriteDrawing (s : State) (x y n : Nibble) :
    Paints { fb := s.fb, collision := false } (spriteDrawing x y n s) (spriteBit s x y n) :=
  rowsBit_readBytes s x y n ▸ paints_drawRows _ _ _ _

theorem bounds_of_pixel {fb : Framebuffer} {a b : Nat} (h : pixel fb a b = true) : a < 64 ∧ b < 32 := by
  unfold pixel at h
  split at h
  · next hb => exact hb
  · cases h

/-- The drawing collides where the statement's `Collides` says, which also names the screen. -/
theorem collision_spriteDrawing_iff (s : State) (x y n : Nibble) :
    (spriteDrawing x y n s).collision = true ↔ Collides s x y n := by
  rw [(paints_spriteDrawing s x y n).collides]
  constructor
  · rintro (h | ⟨a, b, hbit, hlit⟩)
    · cases h
    · exact ⟨a, b, (bounds_of_pixel hlit).1, (bounds_of_pixel hlit).2, hbit, hlit⟩
  · rintro ⟨a, b, -, -, hbit, hlit⟩
    exact .inr ⟨a, b, hbit, hlit⟩

/-- The meaning of `DXYN` where the N bytes exist (R112). -/
theorem exec_drw {s : State} {x y n : Nibble} (h : n.toNat = 0 ∨ s.I.toNat + n.toNat ≤ 4096) :
    exec (.drw x y n) s = .next (advance (setV { s with fb := (spriteDrawing x y n s).fb, redraw := true } VF
      (flagByte (spriteDrawing x y n s).collision))) := by
  have hok : readFault s.I.toNat n.toNat = none := (readFault_none _ _).2 h
  simp only [exec, execDrw, hok]

/-- Settles O44: the sprite's rows are drawn as `paints_drawRows` says, and VF is the collision of the drawing. -/
theorem drawXorsSpriteAndReportsCollision : Obligations.DrawXorsSpriteAndReportsCollision := by
  intro s x y n hn
  refine ⟨_, exec_drw hn, fun a b ha hb => ?_, fun hcol => ?_, fun hcol => ?_, rfl, pcPlus2_advance _, ?_,
    fun _ => rfl, rfl⟩
  · simpa [ha, hb] using (paints_spriteDrawing s x y n).pixels a b
  · rw [← collision_spriteDrawing_iff] at hcol
    rw [hcol]
    exact getV_setV_same _ VF 1
  · rw [← collision_spriteDrawing_iff, Bool.not_eq_true] at hcol
    rw [hcol]
    exact getV_setV_same _ VF 0
  · exact fun r hr => getV_setV_ne _ VF r _ hr

theorem spriteBit_congr {s t : State} {x y n : Nibble} (hx : getV t x = getV s x) (hy : getV t y = getV s y)
    (hI : t.I = s.I) (hbytes : SameBytes s t) : spriteBit t x y n = spriteBit s x y n := by
  funext a b
  simp only [spriteBit, hx, hy, hI, hbytes _]

/-- Settles O45: neither the registers nor the bytes that the sprite is read from have changed, so the same bits are XORed
again; they now collide with the pixels that the first drawing lit. -/
theorem drawTwiceRestoresScreen : Obligations.DrawTwiceRestoresScreen := by
  intro s t x y n hx hy hn hdraw
  obtain ⟨t', ht', hpix, -, -, -, -, hregs, hbytes, ht⟩ := drawXorsSpriteAndReportsCollision s x y n hn
  cases ht'.symm.trans hdraw
  have hI : t.I = s.I := by rw [ht]
  have hbit : spriteBit t x y n = spriteBit s x y n := spriteBit_congr (hregs x hx) (hregs y hy) hI hbytes
  obtain ⟨u, hu, hpix2, hcol, hnocol, -⟩ := drawXorsSpriteAndReportsCollision t x y n (hI ▸ hn)
  refine ⟨u, hu, framebuffer_ext _ _ fun a b ha hb => ?_, ?_⟩
  · rw [hpix2 a b ha hb, hpix a b ha hb, hbit, Bool.xor_assoc, Bool.xor_self, Bool.xor_false]
  · have hVF : getV u 0xF#4 = 1 ↔ Collides t x y n := by
      refine ⟨fun h1 => ?_, hcol⟩
      by_contra hno
      exact absurd ((hnocol hno).symm.trans h1) (by decide)
    rw [hVF]
    unfold Collides
    simp only [hbit]
    refine exists₂_congr fun a b => and_congr_right fun ha => and_congr_right fun hb => and_congr_right fun hset => ?_
    rw [hpix a b ha hb, hset, Bool.xor_true, Bool.not_eq_true']

end Sys2Proof.Proofs
end

