-- ==== Sys2Proof/Proofs/CallStack.lean ====
section
/-! SUPPORT. CALL and RET (spec/42_control_flow.md R131, R133, R139): where the stack has room or is occupied, `push` and `pop`
have one answer, which their laws describe. -/

namespace Sys2Proof.Proofs

open Machine Sys2Proof.Frame

/-- The meaning of `2NNN` where the stack has room (R133). -/
theorem exec_call {s : State} (nnn : Addr12) (hroom : s.SP.val < 16) :
    exec (.call nnn) s = .next (jumpTo { s with
      stack := s.stack.set s.SP.val s.pc hroom, SP := ⟨s.SP.val + 1, by omega⟩ } (zext16 nnn)) := by
  simp only [exec, execCall, push, dif_pos hroom]

/-- The meaning of `00EE` where the stack is occupied (R131). -/
theorem exec_ret {s : State} {k : Nat} (hk : k < 16) (hSP : s.SP.val = k + 1) :
    exec .ret s = .next (jumpTo { s with SP := ⟨k, by omega⟩ } (trunc16 ((s.stack[k]'hk).toNat + 2))) := by
  have hne : ¬ s.SP.val = 0 := by omega
  have hpred : s.SP.val - 1 = k := by omega
  simp only [exec, execRet, pop, dif_neg hne, hpred]

theorem raises_call {s : State} (nnn : Addr12) (hfull : s.SP.val = 16) : Raises (.call nnn) s .stackOverflow none := by
  simp only [Raises, exec, execCall, (push_none s s.pc).2 hfull, raise]

theorem raises_ret {s : State} (hempty : s.SP.val = 0) : Raises .ret s .stackUnderflow none := by
  simp only [Raises, exec, execRet, (pop_none s).2 hempty, raise]

/-- Settles O48. -/
theorem callPushesOwnAddress : Obligations.CallPushesOwnAddress := by
  intro s nnn
  refine ⟨fun hroom => ?_, raises_call nnn⟩
  refine ⟨_, exec_call nnn hroom, rfl, fun k hk => ?_, toNat_zext16 nnn, fun _ => rfl, rfl⟩
  simp only [jumpTo_stack, Vector.getElem_set, eq_comm]

/-- Settles O49. -/
theorem returnPopsAndAddsTwo : Obligations.ReturnPopsAndAddsTwo := by
  intro s
  refine ⟨fun k hk hSP => ?_, raises_ret⟩
  exact ⟨_, exec_ret hk hSP, rfl, toNat_trunc16 _, fun _ => rfl, rfl⟩

/-- Settles O50: the RET pops the slot that the CALL filled, and neither touches the slots below it. -/
theorem returnResumesAfterCall : Obligations.ReturnResumesAfterCall := by
  intro s t u nnn hroom hcall hstack hSP
  obtain ⟨t', ht', hSP', hslots, -⟩ := (callPushesOwnAddress s nnn).1 hroom
  cases ht'.symm.trans hcall
  have hSPu : u.SP.val = s.SP.val + 1 := (congrArg Fin.val hSP).trans hSP'
  obtain ⟨w, hw, hSPw, hpcw, -, hframe⟩ := (returnPopsAndAddsTwo u).1 s.SP.val hroom hSPu
  have hslotsU : ∀ k (h : k < 16), u.stack[k]'h = if k = s.SP.val then s.pc else s.stack[k]'h := by
    rw [hstack]
    exact hslots
  refine ⟨w, hw, ?_, Fin.ext hSPw, fun k hk hlow => ?_⟩
  · rw [hpcw, hslotsU, if_pos rfl]
  · have hstackW : w.stack = u.stack := by rw [hframe]
    simp only [hstackW, hslotsU, if_neg (Nat.ne_of_lt hlow)]

end Sys2Proof.Proofs
end

