-- ==== Sys2Proof/Proofs/KeysAndSound.lean ====
section
/-! SUPPORT. The keypad instructions (spec/45_keypad_timers.md R200, R201, R203), and the timer instructions FX07 and FX18
over the core's whole step, which ends with the timer phase (R96, R202, R205). -/

namespace Sys2Proof.Proofs

open Machine Sys2Proof.Frame

/-! Skips on a key. -/

theorem setWidth_of_toNat_eq {v : Byte} {k : Nibble} (h : v.toNat = k.toNat) : v.setWidth 4 = k := by
  apply BitVec.eq_of_toNat_eq
  rw [BitVec.toNat_setWidth, h]
  exact Nat.mod_eq_of_lt k.isLt

/-- The meaning of `EX9E` where V[X] is a key index (R200). -/
theorem exec_skp {s : State} {x k : Nibble} (h : (getV s x).toNat = k.toNat) :
    exec (.skp x) s = .next (skipIf (keyDown s k) s) := by
  have hle : ¬ 15 < (getV s x).toNat := by have := k.isLt; omega
  simp only [exec, execSkp, if_neg hle, setWidth_of_toNat_eq h]

/-- The meaning of `EXA1` where V[X] is a key index (R201). -/
theorem exec_sknp {s : State} {x k : Nibble} (h : (getV s x).toNat = k.toNat) :
    exec (.sknp x) s = .next (skipIf (!keyDown s k) s) := by
  have hle : ¬ 15 < (getV s x).toNat := by have := k.isLt; omega
  simp only [exec, execSknp, if_neg hle, setWidth_of_toNat_eq h]

theorem raises_skp {s : State} {x : Nibble} (h : 15 < (getV s x).toNat) :
    Raises (.skp x) s .keyIndexOutOfRange (some (getV s x).toNat) := by
  simp only [Raises, exec, execSkp, if_pos h, raise]

theorem raises_sknp {s : State} {x : Nibble} (h : 15 < (getV s x).toNat) :
    Raises (.sknp x) s .keyIndexOutOfRange (some (getV s x).toNat) := by
  simp only [Raises, exec, execSknp, if_pos h, raise]

/-- Settles O53: a key index below 16 is a nibble; above, the check fails. -/
theorem skipOnKey : Obligations.SkipOnKey := by
  intro s x
  refine ⟨fun k hk => ⟨?_, ?_⟩, fun h => ⟨raises_skp h, raises_sknp h⟩⟩
  · obtain ⟨t, ht, hpc, honly, -⟩ := skips_of_exec (exec_skp hk)
    exact ⟨t, ht, hpc, honly⟩
  · obtain ⟨t, ht, hpc, honly, -⟩ := skips_of_exec (exec_sknp hk)
    refine ⟨t, ht, hpc.trans ?_, honly⟩
    cases keyDown s k <;> rfl

/-! The lowest pressed key. -/

/-- `find?` goes through the indices in rising order (R203). -/
theorem lowestKey_eq_some_iff (s : State) (k : Nibble) : lowestKey s = some k ↔
    keyDown s k = true ∧ ∀ j : Nibble, j.toNat < k.toNat → keyDown s j = false := by
  have hofNat : ∀ j : Nibble, BitVec.ofNat 4 j.toNat = j := fun j => by simp
  have htoNat : ∀ m, m < 16 → (BitVec.ofNat 4 m).toNat = m := fun m hm => Nat.mod_eq_of_lt hm
  simp only [lowestKey, allKeys, List.find?_map, Option.map_eq_some_iff, List.find?_range_eq_some,
    Function.comp_apply, Bool.not_eq_true', List.mem_range]
  constructor
  · rintro ⟨m, ⟨hdown, hm, hlow⟩, rfl⟩
    refine ⟨hdown, fun j hj => ?_⟩
    rw [htoNat m hm] at hj
    exact hofNat j ▸ hlow j.toNat hj
  · rintro ⟨hdown, hlow⟩
    refine ⟨k.toNat, ⟨by rwa [hofNat], k.isLt, fun m hm => hlow _ ?_⟩, hofNat k⟩
    rwa [htoNat m (hm.trans k.isLt)]

theorem lowestKey_eq_none_iff (s : State) : lowestKey s = none ↔ ∀ k, keyDown s k = false := by
  have hmem : ∀ k : Nibble, k ∈ allKeys := by decide
  simp [lowestKey, hmem]

/-- The meaning of `FX0A` with a key pressed (R203). -/
theorem exec_ldVxK_pressed {s : State} {k : Nibble} (x : Nibble) (h : lowestKey s = some k) :
    exec (.ldVxK x) s = .next (writeVx s x (k.setWidth 8)) := by
  simp only [exec, execLdVxK, h]

/-- The meaning of `FX0A` with no key pressed (R203; D17). -/
theorem exec_ldVxK_none {s : State} (x : Nibble) (h : lowestKey s = none) : exec (.ldVxK x) s = .next s := by
  simp only [exec, execLdVxK, h]

/-- Settles O54. -/
theorem waitForLowestKey : Obligations.WaitForLowestKey := by
  intro s x
  refine ⟨fun k hdown hlow => ?_, fun hnone => exec_ldVxK_none x ((lowestKey_eq_none_iff s).2 hnone)⟩
  refine ⟨_, exec_ldVxK_pressed x ((lowestKey_eq_some_iff s k).2 ⟨hdown, hlow⟩), ?_, writeVx_frame s x _⟩
  rw [getV_writeVx_same]
  exact BitVec.toNat_setWidth_of_le (by decide)

/-! The timers. -/

/-- The core's step on a fetched instruction: `exec` and the end of the step. -/
theorem cycle_of_encode {s : State} {i : Instr} (hrun : s.fault = none) (hf : fetch s = .ok (encode i)) :
    cycle s = finish (exec i (quiet s)) :=
  cycle_of_decodeRow hrun hf (decodeRow_encode i)

/-- The meaning of `FX07` (R202). -/
theorem exec_ldVxDt (s : State) (x : Nibble) : exec (.ldVxDt x) s = .next (writeVx s x s.DT) := rfl

/-- The meaning of `FX18` (R205). -/
theorem exec_ldStVx (s : State) (x : Nibble) : exec (.ldStVx x) s = .next (advance { s with ST := getV s x }) := rfl

/-- Settles O55: the ticks of the step come after the read. -/
theorem readDelayTimer : Obligations.ReadDelayTimer := by
  intro s x
  refine ⟨⟨_, exec_ldVxDt s x, getV_writeVx_same s x _, writeVx_frame s x _⟩, fun hrun hf => ?_⟩
  have hc : cycle s = .next (timerPhase (writeVx (quiet s) x s.DT)) :=
    (cycle_of_encode hrun hf).trans (finish_running hrun)
  exact ⟨_, hc, getV_writeVx_same (quiet s) x _, toNat_timerPhase_DT _⟩

/-- R242: among `n` ticks there is one that takes ST from 1 to 0 exactly when ST is between 1 and `n` (D19). -/
theorem tickTimes_edge_iff (n : Nat) (t : TimerBlock) :
    (tickTimes n t).edge = true ↔ t.edge = true ∨ (1 ≤ t.ST.toNat ∧ t.ST.toNat ≤ n) := by
  induction n generalizing t with
  | zero =>
    have hno : ¬ (1 ≤ t.ST.toNat ∧ t.ST.toNat ≤ 0) := by omega
    exact (or_iff_left hno).symm
  | succ n ih =>
    have htick : (tick t).ST.toNat = t.ST.toNat - 1 := countDown_toNat t.ST
    rw [tickTimes_succ, ih, tick_edge_iff, htick, or_assoc]
    exact or_congr_right (by omega)

theorem timerPhase_soundOut_iff (s : State) :
    (timerPhase s).soundOut = true ↔ 1 ≤ s.ST.toNat ∧ s.ST.toNat ≤ s.ticks := by
  simp [tickTimes_edge_iff, timersOf]

theorem toNat_timerPhase_ST (s : State) : (timerPhase s).ST.toNat = s.ST.toNat - s.ticks :=
  toNat_tickTimes_ST s.ticks (timersOf s)

/-- Settles O57: `sound_out` comes from the timer phase alone. -/
theorem setSoundTimer : Obligations.SetSoundTimer := by
  intro s x
  refine ⟨encoded_rowOf (.ldStVx x), ⟨_, exec_ldStVx s x, rfl, pcPlus2_advance _, fun _ => rfl, rfl⟩,
    fun hrun hf => ?_⟩
  have hc : cycle s = .next (timerPhase (advance { quiet s with ST := getV s x })) :=
    (cycle_of_encode hrun hf).trans (finish_running hrun)
  exact ⟨_, hc, toNat_timerPhase_ST _, timerPhase_soundOut_iff _⟩

/-- Settles O13: `finish` is the timer phase, whose fields the laws of `tickTimes` describe. -/
theorem timerPhaseAppliesTicks : Obligations.TimerPhaseAppliesTicks := by
  intro i s t hexec hok
  have hfin : finish (exec i s) = .next (timerPhase t) := by rw [hexec, finish_running hok]
  exact ⟨_, hfin, toNat_timerPhase_DT t, toNat_timerPhase_ST t, timerPhase_soundOut_iff t, rfl⟩

end Sys2Proof.Proofs
end

