-- ==== Sys2Proof/Proofs/Effects.lean ====
section
/-! SUPPORT. All that `exec` can do, said once for every instruction: where the fault table of the statements (`RaisedAs`)
has an entry, exactly that fault is raised; elsewhere the instruction completes, with its effect on everything but the pc and
the pc of R95. The whole-machine rules follow from this and from the frame of the effects. -/

namespace Sys2Proof.Proofs

open Machine Sys2Proof.Frame

/-- What an instruction that completes does to everything but the pc. -/
def effect (s : State) : Instr → State
  | .cls => { s with fb := Machine.clearScreen, redraw := true }
  | .ret => { s with SP := ⟨s.SP.val - 1, by omega⟩ }
  | .call _ => { s with
      stack := s.stack.setIfInBounds s.SP.val s.pc
      SP := ⟨min (s.SP.val + 1) 16, by omega⟩ }
  | .ldVxNn x nn => setV s x nn
  | .addVxNn x nn => setV s x (addResult (getV s x) nn)
  | .ldVxVy x y => setV s x (getV s y)
  | .or x y => setV s x (getV s x ||| getV s y)
  | .and x y => setV s x (getV s x &&& getV s y)
  | .xor x y => setV s x (getV s x ^^^ getV s y)
  | .addVxVy x y => setFlagThenResult s x (addCarry (getV s x) (getV s y)) (addResult (getV s x) (getV s y))
  | .sub x y => setFlagThenResult s x (subNoBorrow (getV s x) (getV s y)) (subResult (getV s x) (getV s y))
  | .shr x _ => setFlagThenResult s x (shrOut (getV s x)) (shrResult (getV s x))
  | .subn x y => setFlagThenResult s x (subNoBorrow (getV s y) (getV s x)) (subResult (getV s y) (getV s x))
  | .shl x _ => setFlagThenResult s x (shlOut (getV s x)) (shlResult (getV s x))
  | .rnd x nn => setV s x (s.rnd &&& nn)
  | .ldVxDt x => setV s x s.DT
  | .ldVxK x => setV s x (((lowestKey s).map (BitVec.setWidth 8)).getD (getV s x))
  | .ldINnn nnn => { s with I := zext16 nnn }
  | .addIVx x => { s with I := trunc16 (s.I.toNat + (getV s x).toNat) }
  | .ldFVx x => { s with I := trunc16 (5 * (getV s x).toNat) }
  | .ldDtVx x => { s with DT := getV s x }
  | .ldStVx x => { s with ST := getV s x }
  | .ldBVx x => storeBytes s s.I.toNat (decimalDigits (getV s x))
  | .ldMiVx x => storeBytes s s.I.toNat (regsUpTo s x)
  | .ldVxMi x => { s with V := loadRegs s s.I.toNat (upTo x) s.V }
  | .drw x y n => setV { s with fb := (spriteDrawing x y n s).fb, redraw := true } VF
      (flagByte (spriteDrawing x y n s).collision)
  | .jp _ | .jpV0 _ | .seVxNn _ _ | .sneVxNn _ _ | .seVxVy _ _ | .sneVxVy _ _ | .skp _ | .sknp _ => s

/-- The state in which an instruction completes: its effect, and the pc of R95. -/
def completed (s : State) (i : Instr) : State := jumpTo (effect s i) (trunc16 (pcAfter s i))

/-! Where the table has no entry, the instruction completes. -/

theorem trunc16_toNat (w : Word) : trunc16 w.toNat = w := (BitVec.ofNat_toNat 16 w).trans (BitVec.setWidth_eq w)

theorem jumpTo_zext16 (s : State) (nnn : Addr12) : jumpTo s (zext16 nnn) = jumpTo s (trunc16 nnn.toNat) := by
  rw [← toNat_zext16, trunc16_toNat]

theorem skipIf_eq_jumpTo (c : Bool) (s : State) :
    skipIf c s = jumpTo s (trunc16 (s.pc.toNat + if c = true then 4 else 2)) := by
  cases c <;> rfl

theorem setV_getV (s : State) (x : Nibble) : setV s x (getV s x) = s := by
  simp [setV, getV]

/-- The latch of a key index, as `pcAfter` reads it off the list of latches. -/
theorem getD_key_toNat (s : State) (k : Nibble) : s.key.toList.getD k.toNat false = keyDown s k := by
  have hk : k.toNat < 16 := k.isLt
  simp [keyDown, hk]

theorem exists_nibble_of_le {v : Byte} (h : ¬ 15 < v.toNat) : ∃ k : Nibble, v.toNat = k.toNat :=
  ⟨BitVec.ofNat 4 v.toNat, (Nat.mod_eq_of_lt (by omega)).symm⟩

theorem exec_call_completed {s : State} {nnn : Addr12} (hroom : s.SP.val < 16) :
    exec (.call nnn) s = .next (completed s (.call nnn)) := by
  have hSP : min (s.SP.val + 1) 16 = s.SP.val + 1 := by omega
  have hstack : s.stack.setIfInBounds s.SP.val s.pc = s.stack.set s.SP.val s.pc hroom :=
    Vector.ext fun _ _ => by rw [Vector.getElem_setIfInBounds, Vector.getElem_set]
  rw [exec_call nnn hroom, jumpTo_zext16]
  simp only [completed, effect, pcAfter, hSP, hstack]

theorem exec_ret_completed {s : State} (hocc : s.SP.val ≠ 0) : exec .ret s = .next (completed s .ret) := by
  obtain ⟨k, hk⟩ := Nat.exists_eq_succ_of_ne_zero hocc
  have hk16 : k < 16 := by omega
  have hpred : s.SP.val - 1 = k := by omega
  rw [exec_ret hk16 hk]
  simp [completed, effect, pcAfter, hpred, hk16]

theorem exec_skp_completed {s : State} {x : Nibble} (h : ¬ 15 < (getV s x).toNat) :
    exec (.skp x) s = .next (completed s (.skp x)) := by
  obtain ⟨k, hk⟩ := exists_nibble_of_le h
  rw [exec_skp hk, skipIf_eq_jumpTo]
  simp only [completed, effect, pcAfter, hk, getD_key_toNat]

theorem exec_sknp_completed {s : State} {x : Nibble} (h : ¬ 15 < (getV s x).toNat) :
    exec (.sknp x) s = .next (completed s (.sknp x)) := by
  obtain ⟨k, hk⟩ := exists_nibble_of_le h
  rw [exec_sknp hk, skipIf_eq_jumpTo]
  simp only [completed, effect, pcAfter, hk, getD_key_toNat, Bool.not_eq_true']

theorem exec_ldVxK_completed (s : State) (x : Nibble) : exec (.ldVxK x) s = .next (completed s (.ldVxK x)) := by
  cases hk : lowestKey s with
  | none =>
    have hup : ¬ ∃ k, keyDown s k = true := by simpa using (lowestKey_eq_none_iff s).1 hk
    have heff : effect s (.ldVxK x) = s := by
      simp only [effect, hk, Option.map_none, Option.getD_none, setV_getV]
    have hpc : pcAfter s (.ldVxK x) = s.pc.toNat := by simp only [pcAfter, if_neg hup, Nat.add_zero]
    rw [exec_ldVxK_none x hk, completed, heff, hpc, trunc16_toNat]
    rfl
  | some k =>
    have hdown : ∃ k, keyDown s k = true := ⟨k, ((lowestKey_eq_some_iff s k).1 hk).1⟩
    have heff : effect s (.ldVxK x) = setV s x (k.setWidth 8) := by
      simp only [effect, hk, Option.map_some, Option.getD_some]
    have hpc : pcAfter s (.ldVxK x) = s.pc.toNat + 2 := by simp only [pcAfter, if_pos hdown]
    rw [exec_ldVxK_pressed x hk, completed, heff, hpc]
    rfl

/-- Where FX33 raises no fault, its bytes are writable memory. -/
theorem writable_of_ldBVx {s : State} {x : Nibble} (h : ∀ k info, ¬ RaisedAs s (.ldBVx x) k info) :
    0x050 ≤ s.I.toNat ∧ s.I.toNat + 3 ≤ 4096 := by
  have hend : ¬ 4096 < s.I.toNat + 3 := fun hend => h .addressOutOfRange _ ⟨hend, rfl⟩
  have hfont : ¬ s.I.toNat ≤ 0x04F := fun hfont => h .romWrite _ ⟨hfont, rfl⟩
  omega

/-- Where FX55 raises no fault, its bytes are writable memory. -/
theorem writable_of_ldMiVx {s : State} {x : Nibble} (h : ∀ k info, ¬ RaisedAs s (.ldMiVx x) k info) :
    0x050 ≤ s.I.toNat ∧ s.I.toNat + x.toNat + 1 ≤ 4096 := by
  have hend : ¬ 4096 < s.I.toNat + x.toNat + 1 := fun hend => h .addressOutOfRange _ ⟨hend, rfl⟩
  have hfont : ¬ s.I.toNat ≤ 0x04F := fun hfont => h .romWrite _ ⟨hfont, rfl⟩
  omega

/-- The arms that can fault complete because their row of the table is off; every other arm always completes. -/
theorem exec_completes {i : Instr} {s : State} (h : ∀ k info, ¬ RaisedAs s i k info) :
    exec i s = .next (completed s i) := by
  cases i
  case jp nnn => rw [exec_jp, jumpTo_zext16]; rfl
  case jpV0 nnn => rw [exec_jpV0, toNat_zext16]; rfl
  case seVxNn x nn => rw [exec_seVxNn, skipIf_eq_jumpTo]; simp only [beq_iff_eq]; rfl
  case sneVxNn x nn => rw [exec_sneVxNn, skipIf_eq_jumpTo]; simp only [bne_iff_ne]; rfl
  case seVxVy x y => rw [exec_seVxVy, skipIf_eq_jumpTo]; simp only [beq_iff_eq]; rfl
  case sneVxVy x y => rw [exec_sneVxVy, skipIf_eq_jumpTo]; simp only [bne_iff_ne]; rfl
  case call nnn =>
    have hfull : s.SP.val ≠ 16 := fun hfull => h .stackOverflow none ⟨hfull, rfl⟩
    exact exec_call_completed (by omega)
  case ret => exact exec_ret_completed fun hempty => h .stackUnderflow none ⟨hempty, rfl⟩
  case skp x => exact exec_skp_completed fun hbig => h .keyIndexOutOfRange _ ⟨hbig, rfl⟩
  case sknp x => exact exec_sknp_completed fun hbig => h .keyIndexOutOfRange _ ⟨hbig, rfl⟩
  case ldVxK x => exact exec_ldVxK_completed s x
  case drw x y n =>
    have hend : ¬ (0 < n.toNat ∧ 4096 < s.I.toNat + n.toNat) :=
      fun hend => h .addressOutOfRange _ ⟨hend.1, hend.2, rfl⟩
    exact exec_drw (by omega)
  case ldVxMi x =>
    have hend : ¬ 4096 < s.I.toNat + x.toNat + 1 := fun hend => h .addressOutOfRange _ ⟨hend, rfl⟩
    exact exec_ldVxMi (by omega)
  case ldBVx x => exact exec_ldBVx (writable_of_ldBVx h).1 (writable_of_ldBVx h).2
  case ldMiVx x => exact exec_ldMiVx (writable_of_ldMiVx h).1 (writable_of_ldMiVx h).2
  all_goals rfl

/-- Where the table has an entry, that fault is raised: one law per arm of `RaisedAs`, the last of which is `False`. -/
theorem raises_of_raisedAs {i : Instr} {s : State} {k : FaultKind} {info : Option Nat} (h : RaisedAs s i k info) :
    Raises i s k info := by
  unfold RaisedAs at h
  split at h
  case h_1 info nnn => obtain ⟨hfull, rfl⟩ := h; exact raises_call nnn hfull
  case h_2 info => obtain ⟨hempty, rfl⟩ := h; exact raises_ret hempty
  case h_3 info x => obtain ⟨hbig, rfl⟩ := h; exact raises_skp hbig
  case h_4 info x => obtain ⟨hbig, rfl⟩ := h; exact raises_sknp hbig
  case h_5 info x y n =>
    obtain ⟨hn, hend, rfl⟩ := h
    exact (readsTrapOnLowestBadAddress s x y n).2 hn hend
  case h_6 info x =>
    obtain ⟨hend, rfl⟩ := h
    exact (readsTrapOnLowestBadAddress s x 0 0).1 hend
  case h_7 info x =>
    obtain ⟨hend, rfl⟩ := h
    obtain ⟨hdigits, -, -, -⟩ := storesTrapOnLowestBadAddress s x
    exact hdigits hend
  case h_8 info x =>
    obtain ⟨hend, rfl⟩ := h
    obtain ⟨-, -, hregs, -⟩ := storesTrapOnLowestBadAddress s x
    exact hregs hend
  case h_9 info x =>
    obtain ⟨hfont, rfl⟩ := h
    obtain ⟨-, hdigits, -, -⟩ := storesTrapOnLowestBadAddress s x
    exact hdigits hfont
  case h_10 info x =>
    obtain ⟨hfont, rfl⟩ := h
    obtain ⟨-, -, -, hregs⟩ := storesTrapOnLowestBadAddress s x
    exact hregs hfont
  case h_11 => exact h.elim

/-- The state after a fault is raised (R97, R98). -/
def faulted (s : State) (i : Instr) (k : FaultKind) (info : Option Nat) : State :=
  { s with fault := some { kind := k, pc := s.pc, opcode := some (encode i), info := info } }

/-- All that `exec` can answer. -/
theorem exec_cases (i : Instr) (s : State) :
    (∃ k info, RaisedAs s i k info ∧ exec i s = .next (faulted s i k info)) ∨
    ((∀ k info, ¬ RaisedAs s i k info) ∧ exec i s = .next (completed s i)) := by
  by_cases h : ∃ k info, RaisedAs s i k info
  · obtain ⟨k, info, hraised⟩ := h
    exact .inl ⟨k, info, hraised, raises_of_raisedAs hraised⟩
  · have hno : ∀ k info, ¬ RaisedAs s i k info := fun k info hr => h ⟨k, info, hr⟩
    exact .inr ⟨hno, exec_completes hno⟩

/-- The same, for the next state. -/
theorem exec_next_cases {i : Instr} {s t : State} (h : exec i s = .next t) :
    (∃ k info, RaisedAs s i k info ∧ t = faulted s i k info) ∨
    ((∀ k info, ¬ RaisedAs s i k info) ∧ t = completed s i) := by
  rcases exec_cases i s with ⟨k, info, hraised, hf⟩ | ⟨hno, hc⟩
  · exact .inl ⟨k, info, hraised, Host.Outcome.next.inj (h.symm.trans hf)⟩
  · exact .inr ⟨hno, Host.Outcome.next.inj (h.symm.trans hc)⟩

theorem completed_fault (s : State) (i : Instr) : (completed s i).fault = s.fault := by cases i <;> rfl

/-! The whole-machine rules. -/

/-- Settles O23: a completed instruction's pc is the table's, a faulted one's is the old one. -/
theorem pcEffectOfEveryInstruction : Obligations.PcEffectOfEveryInstruction := by
  intro i s t hrun hexec
  rcases exec_next_cases hexec with ⟨k, info, -, rfl⟩ | ⟨-, rfl⟩
  · exact ⟨fun hok => (nomatch hok), fun _ => rfl⟩
  · exact ⟨fun _ => toNat_trunc16 _, fun hbad => absurd ((completed_fault s i).trans hrun) hbad⟩

/-- Settles O24: a latched record tells the completed instruction from the faulted one. -/
theorem faultsRaisedOnlyAsTabled : Obligations.FaultsRaisedOnlyAsTabled := by
  refine ⟨⟨rfl, rfl, rfl, rfl, rfl, rfl⟩, fun i s t r hrun hexec hlatch => ?_,
    fun i s k info hraised => raises_of_raisedAs hraised⟩
  rcases exec_next_cases hexec with ⟨k, info, hraised, rfl⟩ | ⟨-, rfl⟩
  · cases hlatch
    exact ⟨hraised, rfl, rfl⟩
  · rw [completed_fault, hrun] at hlatch
    cases hlatch

/-- The registers that an effect changes are those of the access table (R23). -/
theorem getV_effect {i : Instr} {s : State} {r : Nibble} (h : ¬ MayWrite i r) : getV (effect s i) r = getV s r := by
  cases i
  case ldVxNn | addVxNn | ldVxVy | or | and | xor | rnd | ldVxDt | ldVxK => exact getV_setV_ne s _ r _ h
  case addVxVy x _ | sub x _ | shr x _ | subn x _ | shl x _ => exact sameRegsBut_writeFlagged s x _ _ r h
  case drw => exact getV_setV_ne _ VF r _ h
  case ldVxMi x => exact (getV_loadRegs s s.I.toNat x r).trans (if_neg h)
  all_goals rfl

/-- Settles O21. -/
theorem registersChangeOnlyAsTabled : Obligations.RegistersChangeOnlyAsTabled := by
  intro i s t r hexec hchanged
  by_contra hno
  rcases exec_next_cases hexec with ⟨k, info, -, rfl⟩ | ⟨-, rfl⟩
  · exact hchanged rfl
  · exact hchanged (getV_effect hno)

/-! The fields that an effect changes, and by which instruction. -/

theorem named_of_effect_I {i : Instr} {s : State} (h : (effect s i).I ≠ s.I) :
    (∃ a, i = .ldINnn a) ∨ (∃ x, i = .addIVx x) ∨ ∃ x, i = .ldFVx x := by
  cases i
  case ldINnn a => exact .inl ⟨a, rfl⟩
  case addIVx x => exact .inr (.inl ⟨x, rfl⟩)
  case ldFVx x => exact .inr (.inr ⟨x, rfl⟩)
  all_goals exact absurd rfl h

theorem named_of_effect_stack {i : Instr} {s : State} (h : (effect s i).stack ≠ s.stack) : ∃ a, i = .call a := by
  cases i
  case call a => exact ⟨a, rfl⟩
  all_goals exact absurd rfl h

theorem named_of_effect_SP {i : Instr} {s : State} (h : (effect s i).SP ≠ s.SP) : i = .ret ∨ ∃ a, i = .call a := by
  cases i
  case ret => exact .inl rfl
  case call a => exact .inr ⟨a, rfl⟩
  all_goals exact absurd rfl h

theorem named_of_effect_DT {i : Instr} {s : State} (h : (effect s i).DT ≠ s.DT) : ∃ x, i = .ldDtVx x := by
  cases i
  case ldDtVx x => exact ⟨x, rfl⟩
  all_goals exact absurd rfl h

theorem named_of_effect_ST {i : Instr} {s : State} (h : (effect s i).ST ≠ s.ST) : ∃ x, i = .ldStVx x := by
  cases i
  case ldStVx x => exact ⟨x, rfl⟩
  all_goals exact absurd rfl h

theorem named_of_effect_fb {i : Instr} {s : State} (h : (effect s i).fb ≠ s.fb) :
    i = .cls ∨ ∃ x y n, i = .drw x y n := by
  cases i
  case cls => exact .inl rfl
  case drw x y n => exact .inr ⟨x, y, n, rfl⟩
  all_goals exact absurd rfl h

theorem named_of_effect_redraw {i : Instr} {s : State} (h : (effect s i).redraw ≠ s.redraw) :
    (effect s i).redraw = true ∧ (i = .cls ∨ ∃ x y n, i = .drw x y n) := by
  cases i
  case cls => exact ⟨rfl, .inl rfl⟩
  case drw x y n => exact ⟨rfl, .inr ⟨x, y, n, rfl⟩⟩
  all_goals exact absurd rfl h

theorem named_of_effect_mem {i : Instr} {s : State} (h : (effect s i).mem ≠ s.mem) :
    (∃ x, i = .ldBVx x) ∨ ∃ x, i = .ldMiVx x := by
  cases i
  case ldBVx x => exact .inl ⟨x, rfl⟩
  case ldMiVx x => exact .inr ⟨x, rfl⟩
  all_goals exact absurd rfl h

/-- The fields that no instruction changes. -/
theorem effect_frame (s : State) (i : Instr) :
    (effect s i).key = s.key ∧ (effect s i).ticks = s.ticks ∧ (effect s i).rnd = s.rnd ∧
      (effect s i).soundOut = s.soundOut ∧ (effect s i).turns = s.turns ∧ (effect s i).turnNo = s.turnNo ∧
      (effect s i).font = s.font := by
  cases i <;> exact ⟨rfl, rfl, rfl, rfl, rfl, rfl, rfl⟩

theorem effect_font (s : State) (i : Instr) : (effect s i).font = s.font := by
  obtain ⟨-, -, -, -, -, -, hfont⟩ := effect_frame s i
  exact hfont

/-- Settles O22: raising a fault changes none of the fields named, and an effect those that it is named for. -/
theorem stateChangesOnlyByNamedInstructions : Obligations.StateChangesOnlyByNamedInstructions := by
  intro i s t hexec
  rcases exec_next_cases hexec with ⟨k, info, -, rfl⟩ | ⟨-, rfl⟩
  · exact ⟨fun h => absurd rfl h, fun h => h.elim (absurd rfl) (absurd rfl), fun h => absurd rfl h,
      fun h => absurd rfl h, fun h => absurd rfl h, fun h => absurd rfl h, fun h => absurd rfl h,
      fun _ h => absurd rfl h, rfl, rfl, rfl, rfl, rfl, rfl, rfl⟩
  · refine ⟨named_of_effect_I, fun h => ?_, named_of_effect_stack, named_of_effect_DT, named_of_effect_ST,
      named_of_effect_fb, named_of_effect_redraw, fun a h => named_of_effect_mem (s := s) fun hmem => h ?_, effect_frame s i⟩
    · exact h.elim (fun hstack => .inr (named_of_effect_stack hstack)) named_of_effect_SP
    · exact byteAt_congr s _ a hmem (effect_font s i)

end Sys2Proof.Proofs
end

