-- ==== Sys2Proof/Proofs/CoreStep.lean ====
section
/-! SUPPORT. The core's step and the model's step (spec/40_cycle.md R90 to R103): each of the three things a running core can
do answers a next state, and the first two, and a faulting instruction, change the latch alone. -/

namespace Sys2Proof.Proofs

open Machine Sys2Proof.Frame

/-- Settles O9. -/
theorem haltedCycleChangesNothing : Obligations.HaltedCycleChangesNothing := by
  intro s r hlatch
  have hc : cycle s = .next (quiet s) := cycle_halted s r hlatch
  refine ⟨hc, fun t ht => ?_⟩
  cases hc.symm.trans ht
  exact hlatch

/-- Settles O8: the fetched word is the two bytes, the first one high, and the host's turn reaches neither them nor the pc. -/
theorem stepRunsDecodedInstruction : Obligations.StepRunsDecodedInstruction := by
  intro s i hrun hpc hdec
  have hword : decodeWord (byteAt s s.pc.toNat ++ byteAt s (s.pc.toNat + 1)) = .ok i := by
    rw [decodeBytes_cons] at hdec
    split at hdec
    · next j hj => cases hdec; exact hj
    · cases hdec
  have hfetch : fetch (takeTurn s) = .ok (byteAt s s.pc.toNat ++ byteAt s (s.pc.toNat + 1)) :=
    (fetch_ok (takeTurn s) _).2 ⟨by rw [takeTurn_pc]; omega, rfl⟩
  have hstep : step s = finish (exec i (quiet (takeTurn s))) :=
    cycle_of_decodeRow hrun hfetch ((decodeWord_ok _ i).1 hword)
  refine ⟨hstep, fun t ht => ⟨fun hok => ?_, fun hbad => ?_⟩⟩
  · rw [hstep, ht, finish_running hok]
  · have hsome : t.fault.isSome = true := Option.isSome_iff_ne_none.2 hbad
    rw [hstep, ht, finish, if_pos hsome]

/-- Of the three things a running core's step can do, an illegal word leaves one. -/
theorem cycle_of_illegal {s : State} {w : Word} (hrun : s.fault = none) (hf : fetch s = .ok w)
    (hdec : decodeRow w = none) : cycle s = raise .illegalOpcode (some w) (some w.toNat) (quiet s) := by
  rcases cycle_running s hrun with ⟨a, ha, -⟩ | ⟨v, hv, -, hc⟩ | ⟨v, j, hv, hj, -⟩
  · cases hf.symm.trans ha
  · cases hf.symm.trans hv
    exact hc
  · cases hf.symm.trans hv
    cases hdec.symm.trans hj

/-- Settles O5: the record is latched with `sound_out` false, so the halted step finds nothing left to change. -/
theorem illegalWordsRaiseIllegalOpcode : Obligations.IllegalWordsRaiseIllegalOpcode := by
  refine ⟨fun w => ?_, fun w i hdec => ?_, fun s w hrun hf hill => ?_⟩
  · rw [decodeWord_error, decodeRow_eq_none_iff, and_iff_left rfl]
  · rw [Bool.eq_false_iff, ne_eq, ← decodeRow_eq_none_iff, (decodeWord_ok w i).1 hdec]
    exact Option.some_ne_none i
  · have hc := cycle_of_illegal hrun hf ((decodeRow_eq_none_iff w).2 hill)
    exact ⟨_, _, hc, rfl, rfl, rfl, rfl, rfl, cycle_halted _ _ rfl⟩

/-- An instruction always answers a next state. -/
theorem exec_answers (i : Instr) (s : State) : ∃ t, exec i s = .next t := by
  rcases exec_cases i s with ⟨k, info, -, hf⟩ | ⟨-, hc⟩
  · exact ⟨_, hf⟩
  · exact ⟨_, hc⟩

theorem cycle_answers (s : State) : ∃ t, cycle s = .next t := by
  cases hlatch : s.fault with
  | some r => exact ⟨_, cycle_halted s r hlatch⟩
  | none =>
    rcases cycle_running s hlatch with ⟨a, -, hc⟩ | ⟨w, -, -, hc⟩ | ⟨w, i, -, -, hc⟩
    · exact ⟨_, hc⟩
    · exact ⟨_, hc⟩
    · obtain ⟨t, ht⟩ := exec_answers i (quiet s)
      exact ⟨_, hc.trans ((finish_next _ _).2 ⟨t, ht, rfl⟩)⟩

/-- Settles O11. -/
theorem everyCycleAnswersNextState : Obligations.EveryCycleAnswersNextState :=
  fun s => ⟨cycle_answers s, cycle_answers (takeTurn s)⟩

/-- Settles O10: a fetch fault, an illegal word, or an instruction that faults; a completed instruction latches nothing. -/
theorem faultingCycleChangesOnlyLatch : Obligations.FaultingCycleChangesOnlyLatch := by
  intro s t r hrun hcycle hlatch
  rcases cycle_running s hrun with ⟨a, hf, hc⟩ | ⟨w, hf, -, hc⟩ | ⟨w, i, hf, hdec, hc⟩
  · cases (raise_next _ _ _ _ _).1 (hc.symm.trans hcycle)
    cases hlatch
    exact ⟨rfl, rfl, fun v hv => (by cases hf.symm.trans hv), fun _ _ => rfl⟩
  · cases (raise_next _ _ _ _ _).1 (hc.symm.trans hcycle)
    cases hlatch
    exact ⟨rfl, rfl, fun v hv => (by cases hf.symm.trans hv; rfl), fun a ha => by cases hf.symm.trans ha⟩
  · obtain ⟨u, hexec, hu⟩ := (finish_next _ _).1 (hc.symm.trans hcycle)
    rcases exec_next_cases hexec with ⟨k, info, -, rfl⟩ | ⟨-, rfl⟩
    · cases hu
      cases hlatch
      refine ⟨rfl, rfl, fun v hv => ?_, fun a ha => by cases hf.symm.trans ha⟩
      cases hf.symm.trans hv
      exact congrArg some (encode_of_decodeRow hdec)
    · have hok : (completed (quiet s) i).fault = none := (completed_fault _ i).trans hrun
      simp only [hok, Option.isSome_none, Bool.false_eq_true, if_false] at hu
      rw [hu, timerPhase_fault, hok] at hlatch
      cases hlatch

/-! Runs of a halted machine. -/

theorem run_succ_of_step {n : Nat} {s t : State} (h : step s = .next t) :
    Host.Core.run core (n + 1) s = Host.Core.run core n t := by
  have hcore : core.step s = .next t := h
  simp only [Host.Core.run, hcore]

/-- Settles O20, by induction on the number of steps: the host's turn and the halted core touch none of the fields named. -/
theorem latchedFaultFreezesMachine : Obligations.LatchedFaultFreezesMachine := by
  intro n
  induction n with
  | zero => exact fun s r hlatch => ⟨s, rfl, hlatch, rfl, rfl, rfl, rfl, rfl, rfl, rfl, rfl, rfl, rfl⟩
  | succ n ih =>
    intro s r hlatch
    have hstep : step s = .next (quiet (takeTurn s)) := cycle_halted (takeTurn s) r hlatch
    obtain ⟨t, hrun, hframe⟩ := ih (quiet (takeTurn s)) r hlatch
    exact ⟨t, (run_succ_of_step hstep).trans hrun, hframe⟩

end Sys2Proof.Proofs
end

