-- ==== Sys2Proof/Proofs/HostPort.lean ====
section
/-! SUPPORT. Construction and the host's interface (spec/10_state.md R36, spec/60_exceptions.md R245, R246,
spec/70_reset_and_hazards.md R262). -/

namespace Sys2Proof.Proofs

open Machine Sys2Proof.Frame

/-- Settles O14: memory lists no cell after construction, so every address reads as `unlisted`. -/
theorem resetLeavesConstructionState : Obligations.ResetLeavesConstructionState := by
  refine ⟨rfl, ?_⟩
  rintro font s rfl
  refine ⟨fun r => ?_, rfl, rfl, fun k hk => ?_, rfl, rfl, rfl, fun a ha => unlisted_font font a ha,
    fun a ha _ => unlisted_ram font a ha, fun x y _ _ => pixel_clearScreen x y, fun k => ?_, rfl, rfl⟩
  · simp [State.construct, getV]
  · simp [State.construct]
  · simp [State.construct, keyDown]

/-- Settles O15: the image is stored at 0x200 by `storeBytes`. -/
theorem loadCopiesImage : Obligations.LoadCopiesImage := by
  intro bytes s
  refine ⟨fun hfits => ?_, fun hlong => if_pos hlong⟩
  obtain ⟨hin, hout, hframe⟩ := storeBytes_spec s Config.progBase bytes
  exact ⟨_, if_neg (Nat.not_lt.2 hfits), hin, hout, hframe⟩

/-! The key writes of a turn. -/

theorem getElem_writeKey (key : Vector Bool 16) (k : Nat) (p : Bool) (j : Nat) (hj : j < 16) :
    (writeKey key k p)[j] = if k = j then p else key[j] := by
  rw [writeKey, Vector.getElem_setIfInBounds]

theorem lastKeyWrite_cons (w : Nat × Bool) (ws : List (Nat × Bool)) (k : Nat) :
    lastKeyWrite (w :: ws) k = (lastKeyWrite ws k).or (if w.1 = k then some w.2 else none) := by
  unfold lastKeyWrite
  rw [List.reverse_cons, List.find?_append]
  cases List.find? (fun w => w.1 == k) ws.reverse with
  | some v => rfl
  | none => by_cases hk : w.1 = k <;> simp [hk]

/-- The writes go in order, so in each latch the last one stays. -/
theorem getElem_writeKeys (key : Vector Bool 16) (ws : List (Nat × Bool)) (k : Nat) (hk : k < 16) :
    (writeKeys key ws)[k] = (lastKeyWrite ws k).getD key[k] := by
  induction ws generalizing key with
  | nil => rfl
  | cons w ws ih =>
    have hcons : writeKeys key (w :: ws) = writeKeys (writeKey key w.1 w.2) ws := rfl
    rw [getElem_congr_coll hcons, ih, lastKeyWrite_cons, getElem_writeKey]
    cases lastKeyWrite ws k with
    | some p => rfl
    | none => by_cases hw : w.1 = k <;> simp [hw]

/-- Settles O16. -/
theorem hostTurnReachesOnlyItsPorts : Obligations.HostTurnReachesOnlyItsPorts := by
  refine ⟨fun k p s hk => if_neg (Nat.not_le.2 hk), fun k p s hk => ?_, fun s e rest hturns => ?_, fun s => rfl⟩
  · refine ⟨_, if_pos hk, fun j => ?_, rfl⟩
    simp only [keyDown, getElem_writeKey, eq_comm]
  · have hcur : currentTurn s = e := by simp only [currentTurn, hturns]
    refine ⟨fun j => ?_, ?_, ?_, ?_, ?_⟩
    · simp only [keyDown, takeTurn_key, hcur, getElem_writeKeys]
    · simp [hcur]
    · rw [takeTurn_ticks, hcur]
    · rw [takeTurn_rnd, hcur]
    · rw [takeTurn_turns, hturns, List.tail_cons]

end Sys2Proof.Proofs
end

