-- ==== Sys2Proof/Proofs/Invariant.lean ====
section
/-! SUPPORT. The invariant (spec/10_state.md R25, spec/20_memory.md R52): it speaks of memory, font, pc and call stack alone,
and an effect reaches memory only by a checked store. -/

namespace Sys2Proof.Proofs

open Machine Sys2Proof.Frame

/-- The invariant depends on five fields. -/
theorem inv_congr {s t : State} (hmem : t.mem = s.mem) (hfont : t.font = s.font) (hpc : t.pc = s.pc)
    (hstack : t.stack = s.stack) (hSP : t.SP = s.SP) (h : Inv s) : Inv t := by
  unfold Machine.Inv FontIntact PcBounded byteAt at h ⊢
  rw [hmem, hfont, hpc, hstack, hSP]
  exact h

theorem inv_takeTurn {s : State} (h : Inv s) : Inv (takeTurn s) := inv_congr rfl rfl rfl rfl rfl h

theorem inv_quiet {s : State} (h : Inv s) : Inv (quiet s) := inv_congr rfl rfl rfl rfl rfl h

theorem inv_timerPhase {s : State} (h : Inv s) : Inv (timerPhase s) := inv_congr rfl rfl rfl rfl rfl h

theorem inv_raise {s t : State} {k : FaultKind} {o : Option Word} {info : Option Nat} (h : Inv s)
    (hraise : raise k o info s = .next t) : Inv t := by
  cases (raise_next _ _ _ _ _).1 hraise
  exact inv_congr rfl rfl rfl rfl rfl h

/-! Memory. -/

/-- A store above the font region and below 4096 keeps memory canonical and the font intact. -/
theorem storeBytes_keeps_memory {s : State} {a : Nat} {bs : List Byte} (hlo : 80 ≤ a) (hhi : a + bs.length ≤ 4096)
    (hwf : s.mem.wf s.font = true) (hfont : FontIntact s) :
    (storeBytes s a bs).mem.wf (storeBytes s a bs).font = true ∧ FontIntact (storeBytes s a bs) := by
  exact ⟨storeBytes_wf s a bs hhi hwf,
    fun b hb => (byteAt_storeBytes_outside b (.inl (by omega))).trans (hfont b hb)⟩

/-- An effect changes memory only by a store that the checks have let through. -/
theorem effect_mem_cases {i : Instr} {s : State} (h : ∀ k info, ¬ RaisedAs s i k info) :
    (effect s i).mem = s.mem ∨
      ∃ a bs, 80 ≤ a ∧ a + bs.length ≤ 4096 ∧ effect s i = storeBytes s a bs := by
  cases i
  case ldBVx x =>
    obtain ⟨hlo, hhi⟩ := writable_of_ldBVx h
    exact .inr ⟨s.I.toNat, decimalDigits (getV s x), hlo, hhi, rfl⟩
  case ldMiVx x =>
    obtain ⟨hlo, hhi⟩ := writable_of_ldMiVx h
    exact .inr ⟨s.I.toNat, regsUpTo s x, hlo, (length_regsUpTo s x).symm ▸ hhi, rfl⟩
  all_goals exact .inl rfl

theorem completed_keeps_memory {i : Instr} {s : State} (h : ∀ k info, ¬ RaisedAs s i k info)
    (hwf : s.mem.wf s.font = true) (hfont : FontIntact s) :
    (completed s i).mem.wf (completed s i).font = true ∧ FontIntact (completed s i) := by
  rcases effect_mem_cases h with hmem | ⟨a, bs, hlo, hhi, hstore⟩
  · have hm : (completed s i).mem = s.mem := hmem
    have hf : (completed s i).font = s.font := effect_font s i
    unfold FontIntact byteAt at hfont ⊢
    rw [hm, hf]
    exact ⟨hwf, hfont⟩
  · unfold completed
    rw [hstore]
    exact storeBytes_keeps_memory hlo hhi hwf hfont

/-! The pc and the call stack. -/

/-- R25: BNNN reaches 0xFFF + 0xFF at most, a RET 0xFFE + 2, and a skip 0xFFE + 4. -/
theorem pcAfter_le {i : Instr} {s : State} (h : ∀ k info, ¬ RaisedAs s i k info) (hpc : s.pc.toNat ≤ 0xFFE)
    (hslots : ∀ k (hk : k < 16), k < s.SP.val → (s.stack[k]'hk).toNat ≤ 0xFFE) : pcAfter s i ≤ 0x10FE := by
  cases i
  case jp nnn | call nnn =>
    have hnnn : nnn.toNat < 4096 := nnn.isLt
    simp only [pcAfter]
    omega
  case jpV0 nnn =>
    have hnnn : nnn.toNat < 4096 := nnn.isLt
    have hv : (getV s 0x0#4).toNat < 256 := (getV s 0x0#4).isLt
    simp only [pcAfter]
    omega
  case ret =>
    have hocc : s.SP.val ≠ 0 := fun hempty => h .stackUnderflow none ⟨hempty, rfl⟩
    have hk : s.SP.val - 1 < 16 := by omega
    have hslot := hslots (s.SP.val - 1) hk (by omega)
    have hget : s.stack.toList.getD (s.SP.val - 1) 0 = s.stack[s.SP.val - 1]'hk := by simp [hk]
    simp only [pcAfter, hget]
    omega
  case seVxNn | sneVxNn | seVxVy | sneVxVy | skp | sknp | ldVxK =>
    simp only [pcAfter]
    split_ifs <;> omega
  all_goals exact (Nat.add_le_add_right hpc 2).trans (by decide)

/-- A CALL fills the slot that it makes occupied with its own address; no other effect makes a slot occupied. -/
theorem effect_slots_le {i : Instr} {s : State} (hpc : s.pc.toNat ≤ 0xFFE)
    (hslots : ∀ k (hk : k < 16), k < s.SP.val → (s.stack[k]'hk).toNat ≤ 0xFFE) :
    ∀ k (hk : k < 16), k < (effect s i).SP.val → ((effect s i).stack[k]'hk).toNat ≤ 0xFFE := by
  cases i
  case ret => exact fun k hk hocc => hslots k hk (Nat.lt_of_lt_of_le hocc (Nat.sub_le _ _))
  case call nnn =>
    intro k hk hocc
    have hslot : ((effect s (.call nnn)).stack[k]'hk) = if s.SP.val = k then s.pc else s.stack[k]'hk :=
      Vector.getElem_setIfInBounds hk
    have hSP : k < min (s.SP.val + 1) 16 := hocc
    rw [hslot]
    split_ifs with hnew
    · exact hpc
    · exact hslots k hk (by omega)
  all_goals exact hslots

/-- A completed instruction keeps the invariant, if its word could be fetched. -/
theorem inv_completed {i : Instr} {s : State} (h : ∀ k info, ¬ RaisedAs s i k info) (hpc : s.pc.toNat ≤ 0xFFE)
    (hinv : Inv s) : Inv (completed s i) := by
  obtain ⟨hwf, hfont, -, hslots⟩ := hinv
  obtain ⟨hwf', hfont'⟩ := completed_keeps_memory h hwf hfont
  have hmod : (completed s i).pc.toNat = pcAfter s i % 65536 := toNat_trunc16 _
  have hle : pcAfter s i ≤ 0x10FE := pcAfter_le h hpc hslots
  exact ⟨hwf', hfont', by omega, effect_slots_le hpc hslots⟩

/-- What `exec` answers keeps the invariant, if the word could be fetched. -/
theorem inv_exec {i : Instr} {s t : State} (hexec : exec i s = .next t) (hpc : s.pc.toNat ≤ 0xFFE) (hinv : Inv s) :
    Inv t := by
  rcases exec_next_cases hexec with ⟨k, info, -, rfl⟩ | ⟨hno, rfl⟩
  · exact inv_congr rfl rfl rfl rfl rfl hinv
  · exact inv_completed hno hpc hinv

/-- The core's step keeps the invariant. -/
theorem inv_cycle {s t : State} (hcycle : cycle s = .next t) (hinv : Inv s) : Inv t := by
  have hq : Inv (quiet s) := inv_quiet hinv
  cases hlatch : s.fault with
  | some r =>
    cases (cycle_halted s r hlatch).symm.trans hcycle
    exact hq
  | none =>
    rcases cycle_running s hlatch with ⟨a, -, hc⟩ | ⟨w, -, -, hc⟩ | ⟨w, i, hf, -, hc⟩
    · exact inv_raise hq (hc.symm.trans hcycle)
    · exact inv_raise hq (hc.symm.trans hcycle)
    · obtain ⟨u, hexec, rfl⟩ := (finish_next _ _).1 (hc.symm.trans hcycle)
      have hu : Inv u := inv_exec hexec ((fetch_ok s w).1 hf).1 hq
      split_ifs
      · exact hu
      · exact inv_timerPhase hu

/-- Settles O17: the host's turn reaches no field of the invariant, and the core's step keeps it. -/
theorem stepKeepsInvariant : Obligations.StepKeepsInvariant :=
  fun _ _ hinv hstep => inv_cycle hstep (inv_takeTurn hinv)

/-- Construction, with any font, gives the invariant: no cell is listed, and no slot is occupied. -/
theorem inv_construct (font : Font) : Inv (State.construct font) :=
  ⟨construct_mem_wf font, fun a ha => unlisted_font font a ha,
    (by decide : (0x0200#16).toNat ≤ 0x10FE), fun k _ hocc => absurd hocc (Nat.not_lt_zero k)⟩

/-- Settles O18. -/
theorem resetHasInvariant : Obligations.ResetHasInvariant := inv_construct defaultFont

/-- A load stores above the font region and below 4096. -/
theorem inv_load {bytes : List Byte} {s t : State} (hload : load bytes s = .ok t) (hinv : Inv s) : Inv t := by
  obtain ⟨hwf, hfont, hbounds⟩ := hinv
  unfold load at hload
  split_ifs at hload with hlong
  cases hload
  have hfits : Config.progBase + bytes.length ≤ 4096 := by
    simp only [Config.progBase, Config.loadCapacity] at *
    omega
  obtain ⟨hwf', hfont'⟩ := storeBytes_keeps_memory (by decide) hfits hwf hfont
  exact ⟨hwf', hfont', hbounds⟩

/-- Settles O19, by induction on how the state is reached. -/
theorem reachableStatesHaveInvariant : Obligations.ReachableStatesHaveInvariant := by
  intro s hs
  induction hs with
  | boot font bytes turns s hload => exact inv_load hload (inv_congr rfl rfl rfl rfl rfl (inv_construct font))
  | step s t _ hstep ih => exact stepKeepsInvariant s t ih hstep
  | setKey k p s t _ hkey ih =>
    unfold Machine.setKey at hkey
    split_ifs at hkey
    cases hkey
    exact inv_congr rfl rfl rfl rfl rfl ih
  | clearRedraw s _ ih => exact inv_congr rfl rfl rfl rfl rfl ih

end Sys2Proof.Proofs
end
